-- ==== Sys2Proof/Word.lean ====
section
/-! DEFINITION. The two bit-vector types of the DBF engine: a 32-bit interface word and an 8-bit sample. -/

namespace Sys2Proof

/-- A 32-bit interface register or descriptor word (10_state R33). -/
abbrev Word := BitVec 32

/-- An 8-bit unsigned sample (00_scope R5). -/
abbrev Byte := BitVec 8

end Sys2Proof
end

