-- ==== Sys2Proof/Syntax.lean ====
section
/-! DEFINITION. The eight commands of the DBF engine, one constructor per row of spec/opcode_table.json, with the operands of
the spec's assembler line (30_encoding R97), and the four-word descriptor that carries them (R90). Operands are integers, as
the rules take them (00_scope R11); their ranges are checked in WellFormed. -/

namespace Sys2Proof

/-- The operands every command has, in the order of R97. -/
structure EdgeOperands where
  /-- Plane address of sample q0 of Line 0 (20_memory R64). -/
  edgePtr : Int
  /-- The plane's row pitch, signed (10_state R37). -/
  stride : Int
  alpha : Int
  beta : Int
deriving DecidableEq, Repr

/-- The tc0 entries of the four groups of a normal-strength command; -1 is the sentinel "not filtered" (30_encoding R93). -/
structure Tc0 where
  t0 : Int
  t1 : Int
  t2 : Int
  t3 : Int
deriving DecidableEq, Repr

/-- The eight filter commands (30_encoding R91). `V` is the vertical form (`DIR` = 0), `H` the horizontal form (`DIR` = 1). -/
inductive Instr where
  /-- `filter_luma.v` (46_commands R230). -/
  | filterLumaV (ops : EdgeOperands) (tc0 : Tc0)
  /-- `filter_luma.h` (R231). -/
  | filterLumaH (ops : EdgeOperands) (tc0 : Tc0)
  /-- `filter_luma_intra.v` (R232). -/
  | filterLumaIntraV (ops : EdgeOperands)
  /-- `filter_luma_intra.h` (R233). -/
  | filterLumaIntraH (ops : EdgeOperands)
  /-- `filter_chroma.v` (R234). -/
  | filterChromaV (ops : EdgeOperands) (tc0 : Tc0)
  /-- `filter_chroma.h` (R235). -/
  | filterChromaH (ops : EdgeOperands) (tc0 : Tc0)
  /-- `filter_chroma_intra.v` (R236). -/
  | filterChromaIntraV (ops : EdgeOperands)
  /-- `filter_chroma_intra.h` (R237). -/
  | filterChromaIntraH (ops : EdgeOperands)
deriving DecidableEq, Repr

/-- A command descriptor: the four 32-bit words of R90, taken together at GO. -/
structure Descriptor where
  /-- Word 0, `CMD_CTRL`. -/
  ctrl : Word
  /-- Word 1, `CMD_TC0`. -/
  tc0 : Word
  /-- Word 2, `CMD_ADDR`. -/
  addr : Word
  /-- Word 3, `CMD_STRIDE`. -/
  stride : Word
deriving DecidableEq, Repr

/-- The filter kind, the field `KIND` (R91). -/
inductive Kind where
  | luma
  | lumaIntra
  | chroma
  | chromaIntra
deriving DecidableEq, Repr

/-- The form of a command, the field `DIR` (R91). -/
inductive Dir where
  | vertical
  | horizontal
deriving DecidableEq, Repr

end Sys2Proof
end

