-- ==== Sys2Proof/WellFormed.lean ====
section
/-! DEFINITION. When a command's operands can be encoded: the ranges the assembler checks (30_encoding R98). -/

namespace Sys2Proof

/-- `lo ≤ v ≤ hi`. -/
def inRange (lo hi v : Int) : Bool :=
  decide (lo ≤ v) && decide (v ≤ hi)

/-- R98: `edge_ptr` in 0..2^32-1, `stride` in -2^31..2^31-1, `alpha` and `beta` in 0..255. -/
def EdgeOperands.wellFormed (o : EdgeOperands) : Bool :=
  inRange 0 4294967295 o.edgePtr && inRange (-2147483648) 2147483647 o.stride &&
    inRange 0 255 o.alpha && inRange 0 255 o.beta

/-- R98, R93: every entry in {-1} ∪ 0..255. -/
def Tc0.wellFormed (t : Tc0) : Bool :=
  inRange (-1) 255 t.t0 && inRange (-1) 255 t.t1 && inRange (-1) 255 t.t2 && inRange (-1) 255 t.t3

/-- The operands of the command can be encoded. -/
def Instr.wellFormed : Instr → Bool
  | .filterLumaV o t => o.wellFormed && t.wellFormed
  | .filterLumaH o t => o.wellFormed && t.wellFormed
  | .filterLumaIntraV o => o.wellFormed
  | .filterLumaIntraH o => o.wellFormed
  | .filterChromaV o t => o.wellFormed && t.wellFormed
  | .filterChromaH o t => o.wellFormed && t.wellFormed
  | .filterChromaIntraV o => o.wellFormed
  | .filterChromaIntraH o => o.wellFormed

end Sys2Proof
end

