-- ==== Sys2Proof/Decode.lean ====
section
/-! DEFINITION. The decoder of a descriptor, total on its four words and rejecting by name (30_encoding R90 to R96), and after
it the encoder and the assembler's range check (R98). -/

namespace Sys2Proof

/-! ## Bit fields -/

/-- `w[hi:lo]` read as an unsigned integer (00_scope R12). -/
def field (hi lo : Nat) (w : Word) : Nat :=
  (w.extractLsb hi lo).toNat

/-- `zext_32` (R12). -/
def zext32 (w : Word) : Int :=
  (w.toNat : Int)

/-- `sext_32` (R12): the word read as two's complement. -/
def sext32 (w : Word) : Int :=
  w.toInt

/-! ## The opcode map -/

/-- One row of the opcode map: a word matches when its masked bits equal the pattern (R91). -/
structure OpcodeRow where
  mask : Word
  pattern : Word
  kind : Kind
  dir : Dir
deriving DecidableEq, Repr

/-- The mask of every row: `KIND`, `DIR` and both reserved fields (R91). -/
def opcodeMask : Word := 0xF00000FF#32

/-- The opcode map of R91, in the order of spec/opcode_table.json. -/
def opcodeTable : List OpcodeRow :=
  [ ⟨opcodeMask, 0x00000000#32, .luma, .vertical⟩,
    ⟨opcodeMask, 0x00000004#32, .luma, .horizontal⟩,
    ⟨opcodeMask, 0x00000001#32, .lumaIntra, .vertical⟩,
    ⟨opcodeMask, 0x00000005#32, .lumaIntra, .horizontal⟩,
    ⟨opcodeMask, 0x00000002#32, .chroma, .vertical⟩,
    ⟨opcodeMask, 0x00000006#32, .chroma, .horizontal⟩,
    ⟨opcodeMask, 0x00000003#32, .chromaIntra, .vertical⟩,
    ⟨opcodeMask, 0x00000007#32, .chromaIntra, .horizontal⟩ ]

/-- `CMD_CTRL` matches the row. -/
def rowMatches (ctrl : Word) (r : OpcodeRow) : Bool :=
  ctrl &&& r.mask == r.pattern

/-! ## Operands -/

/-- `edge_ptr`, `stride`, `alpha`, `beta` of a descriptor (R90, R92). -/
def decodeOperands (d : Descriptor) : EdgeOperands :=
  { edgePtr := zext32 d.addr
    stride := sext32 d.stride
    alpha := (field 15 8 d.ctrl : Int)
    beta := (field 23 16 d.ctrl : Int) }

/-- `tc0[g]` (R93): the sentinel where `SKIP[g]` is set, else the unsigned field `TCV_g`. -/
def decodeTc0Entry (d : Descriptor) (g : Nat) : Int :=
  if field (24 + g) (24 + g) d.ctrl = 1 then -1 else (field (8 * g + 7) (8 * g) d.tc0 : Int)

/-- The four tc0 entries (R93). -/
def decodeTc0 (d : Descriptor) : Tc0 :=
  { t0 := decodeTc0Entry d 0
    t1 := decodeTc0Entry d 1
    t2 := decodeTc0Entry d 2
    t3 := decodeTc0Entry d 3 }

/-- The command of a kind and a form; the intra kinds take no tc0 (R91, R94). -/
def Instr.ofKind : Kind → Dir → EdgeOperands → Tc0 → Instr
  | .luma, .vertical, o, t => .filterLumaV o t
  | .luma, .horizontal, o, t => .filterLumaH o t
  | .lumaIntra, .vertical, o, _ => .filterLumaIntraV o
  | .lumaIntra, .horizontal, o, _ => .filterLumaIntraH o
  | .chroma, .vertical, o, t => .filterChromaV o t
  | .chroma, .horizontal, o, t => .filterChromaH o t
  | .chromaIntra, .vertical, o, _ => .filterChromaIntraV o
  | .chromaIntra, .horizontal, o, _ => .filterChromaIntraH o

/-! ## The decoder -/

/-- Why a descriptor is no command. -/
inductive DecodeError where
  /-- A reserved field of `CMD_CTRL` is not zero, so no row matches (R95). -/
  | reservedEncoding
deriving DecidableEq, Repr

/-- The command a descriptor carries (R90, R91, R95): total, and rejecting only reserved encodings. -/
def decode (d : Descriptor) : Except DecodeError Instr :=
  match opcodeTable.find? (rowMatches d.ctrl) with
  | some r => .ok (Instr.ofKind r.kind r.dir (decodeOperands d) (decodeTc0 d))
  | none => .error .reservedEncoding

/-- The descriptor whose bits are `w`, numbered from bit 0 of word 0 (R90, R12). -/
def Descriptor.ofNat (w : Nat) : Descriptor :=
  { ctrl := BitVec.ofNat 32 w
    tc0 := BitVec.ofNat 32 (w >>> 32)
    addr := BitVec.ofNat 32 (w >>> 64)
    stride := BitVec.ofNat 32 (w >>> 96) }

/-- The descriptor of a table word: `nbits` bits from `w`, every bit above them zero. -/
def tableDescriptor (nbits w : Nat) : Descriptor :=
  Descriptor.ofNat (w % 2 ^ nbits)

/-- The command the decoder reads from a table word (entry 18 of the log). -/
def decodeTableWord (nbits w : Nat) : Option Instr :=
  (decode (tableDescriptor nbits w)).toOption

/-! ## The parts of a command -/

/-- The kind of a command (R91). -/
def Instr.kind : Instr → Kind
  | .filterLumaV _ _ => .luma
  | .filterLumaH _ _ => .luma
  | .filterLumaIntraV _ => .lumaIntra
  | .filterLumaIntraH _ => .lumaIntra
  | .filterChromaV _ _ => .chroma
  | .filterChromaH _ _ => .chroma
  | .filterChromaIntraV _ => .chromaIntra
  | .filterChromaIntraH _ => .chromaIntra

/-- The form of a command (R91). -/
def Instr.dir : Instr → Dir
  | .filterLumaV _ _ => .vertical
  | .filterLumaH _ _ => .horizontal
  | .filterLumaIntraV _ => .vertical
  | .filterLumaIntraH _ => .horizontal
  | .filterChromaV _ _ => .vertical
  | .filterChromaH _ _ => .horizontal
  | .filterChromaIntraV _ => .vertical
  | .filterChromaIntraH _ => .horizontal

/-- The operands of a command that every kind has. -/
def Instr.operands : Instr → EdgeOperands
  | .filterLumaV o _ => o
  | .filterLumaH o _ => o
  | .filterLumaIntraV o => o
  | .filterLumaIntraH o => o
  | .filterChromaV o _ => o
  | .filterChromaH o _ => o
  | .filterChromaIntraV o => o
  | .filterChromaIntraH o => o

/-- The tc0 list of a command; none for the intra kinds (R94, R97). -/
def Instr.tc0 : Instr → Option Tc0
  | .filterLumaV _ t => some t
  | .filterLumaH _ t => some t
  | .filterLumaIntraV _ => none
  | .filterLumaIntraH _ => none
  | .filterChromaV _ t => some t
  | .filterChromaH _ t => some t
  | .filterChromaIntraV _ => none
  | .filterChromaIntraH _ => none

/-- The mnemonic of a command (R91). -/
def Instr.mnemonic : Instr → String
  | .filterLumaV _ _ => "filter_luma.v"
  | .filterLumaH _ _ => "filter_luma.h"
  | .filterLumaIntraV _ => "filter_luma_intra.v"
  | .filterLumaIntraH _ => "filter_luma_intra.h"
  | .filterChromaV _ _ => "filter_chroma.v"
  | .filterChromaH _ _ => "filter_chroma.h"
  | .filterChromaIntraV _ => "filter_chroma_intra.v"
  | .filterChromaIntraH _ => "filter_chroma_intra.h"

/-! ## The encoder -/

/-- The code of `KIND` (R91). -/
def kindCode : Kind → Word
  | .luma => 0#32
  | .lumaIntra => 1#32
  | .chroma => 2#32
  | .chromaIntra => 3#32

/-- The code of `DIR` (R91). -/
def dirCode : Dir → Word
  | .vertical => 0#32
  | .horizontal => 1#32

/-- An integer modulo 2^32 (R98). -/
def toWord (v : Int) : Word :=
  BitVec.ofInt 32 v

/-- `SKIP[g]` for an entry (R98). -/
def skipBit (t : Int) : Word :=
  if t = -1 then 1#32 else 0#32

/-- `TCV_g` for an entry (R98). -/
def tcvField (t : Int) : Word :=
  if t = -1 then 0#32 else toWord t

/-- The `SKIP` field of a tc0 list, bit g for group g (R98). -/
def skipField (t : Tc0) : Word :=
  (skipBit t.t3 <<< 3) ||| (skipBit t.t2 <<< 2) ||| (skipBit t.t1 <<< 1) ||| skipBit t.t0

/-- `CMD_CTRL` (R98). -/
def encodeCtrl (kind : Kind) (dir : Dir) (alpha beta : Int) (skip : Word) : Word :=
  (skip <<< 24) ||| (toWord beta <<< 16) ||| (toWord alpha <<< 8) ||| (dirCode dir <<< 2) ||| kindCode kind

/-- `CMD_TC0` (R98). -/
def encodeTc0 (t : Tc0) : Word :=
  (tcvField t.t3 <<< 24) ||| (tcvField t.t2 <<< 16) ||| (tcvField t.t1 <<< 8) ||| tcvField t.t0

/-- The words of a well-formed command (R98): for an intra command `SKIP` and `CMD_TC0` are 0. -/
def encode (i : Instr) : Descriptor :=
  { ctrl := encodeCtrl i.kind i.dir i.operands.alpha i.operands.beta ((i.tc0.map skipField).getD 0#32)
    tc0 := (i.tc0.map encodeTc0).getD 0#32
    addr := toWord i.operands.edgePtr
    stride := toWord i.operands.stride }

/-- The assembler's answer for a command: its words, or nothing where an operand is out of range (R98). -/
def assemble (i : Instr) : Option Descriptor :=
  if i.wellFormed then some (encode i) else none

end Sys2Proof
end

