-- ==== Sys2Proof/Config.lean ====
section
/-! DEFINITION. The implementation parameters the spec fixes (00_scope R10) and the free values, which nothing in Lean can
evaluate. The parameters R10 leaves OPEN are data of the state (PLANE, NUM_ENGINES, the schedule that stands for LATENCY) or
unobservable (HOST_BINDING, ORIENT_IMPL). -/

namespace Sys2Proof

/-- `LUMA_LINES` (R10). -/
def Config.lumaLines : Nat := 16

/-- `CHROMA_LINES` (R10). -/
def Config.chromaLines : Nat := 8

/-- `LUMA_GROUP_LINES` (R10): Lines that share one tc0 entry on a luma edge. -/
def Config.lumaGroupLines : Nat := 4

/-- `CHROMA_GROUP_LINES` (R10, 90_conflicts C10): Lines that share one tc0 entry on a chroma edge. -/
def Config.chromaGroupLines : Nat := 2

/-- The number of plane addresses, 2^`ADDR_W` with `ADDR_W` = 32 (R10, 20_memory R60). -/
def Config.addressCount : Nat := 4294967296

/-- FREE VALUE. An unspecified 32-bit word, the n-th drawn: what a host read of a descriptor register never written
since reset returns (10_state R46, 93 U7) and what the in-flight latch holds after a completion (R39, U22). -/
opaque Config.freeWord : Nat → Word

/-- FREE VALUE. An unspecified bit, the n-th drawn: whether one address of an abandoned command's K_write holds the
command's value (true) or its value before the command (70_reset_and_hazards R281, U10). -/
opaque Config.freeBit : Nat → Bool

end Sys2Proof
end

