-- ==== Sys2Proof/Machine/State.lean ====
section
/-! DEFINITION. The state of the DBF engine's system as plain data (10_state): the engines, each with its interface
registers, in-flight latch and transient registers, the plane, the host's pending moves, and the model's outcome mark. -/

namespace Sys2Proof.Machine

/-- Why a command faults. A fault is SAFE: the spec says the behaviour is undefined or fatal and makes no claim about
the plane (60_exceptions R252), and no state follows it here. -/
inductive Fault where
  /-- Cause code 2 (60 R254, R256). Raised at GO when descriptor register `index` (the lowest such) was never written
  since reset. Safe. -/
  | unwrittenDescriptor (index : Nat)
  /-- Cause code 3 (20_memory R67). Raised at perform for the first footprint address `a` outside [0, 2^32) or outside
  PLANE. Safe. -/
  | outOfPlane (a : Int)
  /-- Cause code 4 (20_memory R68). Raised at perform for the first coinciding pair of footprint positions. Safe. -/
  | footprintOverlap (j1 : Nat) (k1 : Int) (j2 : Nat) (k2 : Int)
deriving DecidableEq, Repr

/-- Why the model gives a step no meaning. A refusal is SAFE: nothing can be proved of a state after it. -/
inductive Refusal where
  /-- Raised by `exec` for an instruction that has no meaning yet. Safe. -/
  | notModelled (mnemonic : String)
  /-- Cause code 1 (60 R253, R256). Raised at GO for a descriptor with a non-zero reserved field (30_encoding R95). Safe. -/
  | reservedEncoding
  /-- Raised by a host plane access to an address in the footprint of an in-flight command: the host breaks the duty of
  20_memory R72, and the spec has no move for such a run. Safe. -/
  | hostTouchesFootprint (a : Nat)
  /-- Raised at GO on engine `e` when its footprint shares an address with the in-flight command of engine `other`: the
  host breaks the duty of 60 R268. Safe. -/
  | footprintsShared (e other : Nat)
  /-- Raised by a host plane access to an address outside PLANE, of which the spec says nothing. Safe. -/
  | hostOutsidePlane (a : Nat)
  /-- Raised by a host move that names an engine the system does not have. Safe. -/
  | noSuchEngine (e : Nat)
deriving DecidableEq, Repr

/-- The model's sticky outcome mark (10_state R45). Its cause codes (60 R256) are in CauseCode.lean. -/
inductive Mark where
  | ok
  | fault (r : Fault)
  | refused (r : Refusal)
deriving DecidableEq, Repr

/-- The written flags `wr[0..3]` of the descriptor registers (10_state R45). -/
structure Written where
  ctrl : Bool
  tc0 : Bool
  addr : Bool
  stride : Bool
deriving DecidableEq, Repr

/-- The sample registers of one Line (10_state R40); a chroma Line uses `p1 p0 q0 q1` only. -/
structure Line where
  p3 : Byte
  p2 : Byte
  p1 : Byte
  p0 : Byte
  q0 : Byte
  q1 : Byte
  q2 : Byte
  q3 : Byte
deriving DecidableEq, Repr

/-- The mask flags of one Line (10_state R41). -/
structure LineFlags where
  filterEdge : Bool
  ap : Bool
  aq : Bool
  sg : Bool
  en : Bool
deriving DecidableEq, Repr

/-- The per-command parameters (10_state R42). -/
structure Params where
  alpha : Int
  beta : Int
  tc0 : Tc0
deriving DecidableEq, Repr

/-- One engine instance (60_exceptions R268). -/
structure Engine where
  /-- Interface registers 0 to 3, the staging area (R33). -/
  staged : Descriptor
  /-- `wr[0..3]` (R45). -/
  wr : Written
  /-- `STATUS.BUSY` (R38). -/
  busy : Bool
  /-- The in-flight latch `IF` (R39). -/
  inflight : Descriptor
  /-- The Line registers of Lines 0 to 15 (R40). -/
  lines : List Line
  /-- The mask flags of Lines 0 to 15 (R41). -/
  flags : List LineFlags
  /-- The per-command parameters (R42). -/
  params : Params
deriving DecidableEq, Repr

/-- A run of plane addresses, `base` up to but not including `base + size`. -/
structure Region where
  base : Nat
  size : Nat
deriving DecidableEq, Repr

/-- The interface registers by index (10_state R33). -/
inductive RegIndex where
  | cmdCtrl
  | cmdTc0
  | cmdAddr
  | cmdStride
  | status
deriving DecidableEq, Repr

/-- A move of the outside world, or a choice of the schedule, at one step. -/
inductive Input where
  /-- The host writes interface register `r` of engine `e`; a write to `status` is a GO (R38). -/
  | write (e : Nat) (r : RegIndex) (v : Word)
  /-- The host reads interface register `r` of engine `e`. -/
  | read (e : Nat) (r : RegIndex)
  /-- The host stores a sample in the plane. -/
  | planeWrite (a : Nat) (v : Byte)
  /-- The host reads a sample of the plane. -/
  | planeRead (a : Nat)
  /-- Reset of engine `e` is asserted (R280, R281). -/
  | reset (e : Nat)
  /-- Schedule: engine `e` takes its perform step now, which ends its LATENCY (R291). -/
  | perform (e : Nat)
deriving DecidableEq, Repr

/-- The state of a system of engines on one plane. -/
structure State where
  /-- The engine instances; their number is the OPEN parameter `NUM_ENGINES` (00_scope R10). -/
  engines : List Engine
  /-- The engine whose perform step is being taken (the model's own). -/
  active : Nat
  /-- The OPEN parameter `PLANE`: the valid plane addresses (20_memory R60). -/
  plane : List Region
  /-- The samples of the plane, in canonical form. -/
  mem : List Host.Cell
  /-- The host's pending moves and the schedule, oldest first (the model's own). -/
  inputs : List Input
  /-- What the last host read returned (the model's own). -/
  readData : Word
  /-- The number of free values drawn so far (the model's own). -/
  draws : Nat
  /-- The sticky outcome mark (R45), one for the whole system (entry 24: DESIGN CHOICE). -/
  outcome : Mark
deriving DecidableEq, Repr

/-! ## Reset -/

/-- Entry 2: the value the descriptor registers hold at reset, where the spec gives none. -/
def zeroDescriptor : Descriptor := ⟨0#32, 0#32, 0#32, 0#32⟩

/-- Entry 3: a Line's registers at reset. -/
def zeroLine : Line := ⟨0#8, 0#8, 0#8, 0#8, 0#8, 0#8, 0#8, 0#8⟩

/-- Entry 3: a Line's flags at reset. -/
def zeroFlags : LineFlags := ⟨false, false, false, false, false⟩

/-- Entry 3: the parameters at reset. -/
def zeroParams : Params := ⟨0, 0, ⟨0, 0, 0, 0⟩⟩

/-- An engine after reset (10_state R46): idle, every descriptor register unwritten. -/
def Engine.reset : Engine :=
  { staged := zeroDescriptor
    wr := ⟨false, false, false, false⟩
    busy := false
    inflight := zeroDescriptor
    lines := List.replicate Config.lumaLines zeroLine
    flags := List.replicate Config.lumaLines zeroFlags
    params := zeroParams }

/-- A system of `n` engines after reset on a given plane (the OPEN parameters of 00_scope R10), with given samples and
given host moves to come. Reset does not change the plane (R46). -/
def State.resetWith (n : Nat) (plane : List Region) (mem : List Host.Cell) (inputs : List Input) : State :=
  { engines := List.replicate n Engine.reset
    active := 0
    plane := plane
    mem := mem
    inputs := inputs
    readData := 0#32
    draws := 0
    outcome := .ok }

/-- The machine right after reset: one engine, every address of [0, 2^32) in PLANE, no sample listed, no host move
pending (R46, R280; entries 7, 8, 9, 14). -/
def State.reset : State :=
  State.resetWith 1 [⟨0, Config.addressCount⟩] [] []

end Sys2Proof.Machine
end

