-- ==== Sys2Proof/Machine/Arith.lean ====
section
/-! DEFINITION. The integer arithmetic of the rules (00_scope R11 to R20): samples are zero-extended, no intermediate value
wraps, and only a written sample is narrowed. -/

namespace Sys2Proof.Machine

/-- `zext_8`: a sample as an integer (R11, R12). -/
def zext8 (v : Byte) : Int :=
  (v.toNat : Int)

/-- `v >> n`: floor division by 2^n (R13). -/
def asr (v : Int) (n : Nat) : Int :=
  v / 2 ^ n

/-- `|v|` (R14). -/
def absInt (v : Int) : Int :=
  (v.natAbs : Int)

/-- `clip(v, lo, hi)` (R15). -/
def clip (v lo hi : Int) : Int :=
  min (max v lo) hi

/-- `Clip1(v)` (R15). -/
def clip1 (v : Int) : Int :=
  clip v 0 255

/-- The 8-bit sample written for a computed value: `Clip1` of it (R15, R16). -/
def toSample (v : Int) : Byte :=
  BitVec.ofInt 8 (clip1 v)

/-- `b ? 1 : 0` (R20). -/
def boolInt (b : Bool) : Int :=
  if b then 1 else 0

/-- `sel(c, a, b)`: a value selection, not a control transfer (R19). -/
def sel (c : Bool) (a b : Byte) : Byte :=
  if c then a else b

end Sys2Proof.Machine
end

