-- ==== Sys2Proof/Machine/Operands.lean ====
section
/-! DEFINITION. What a command's operands name: the positions of a Line, the position sets of a kind, the address of every
position (the Edge Orientation Adapter's address generation, 45_orientation_adapter R201), the footprint and its checks
(20_memory R64 to R68), and the tc0 entry of a Line's group (40_mask_unit R124). -/

namespace Sys2Proof.Machine

/-! ## Commands -/

/-- A filter unit with the operand only the normal strengths have (45 R203, 30 R94). -/
inductive Filter where
  | luma (tc0 : Tc0)
  | lumaIntra
  | chroma (tc0 : Tc0)
  | chromaIntra
deriving DecidableEq, Repr

/-- A command as the perform step sees it: a filter, a form and the operands every command has (46 R220). -/
structure Command where
  filter : Filter
  dir : Dir
  ops : EdgeOperands
deriving DecidableEq, Repr

/-- The kind of a filter (30 R91). -/
def Filter.kind : Filter → Kind
  | .luma _ => .luma
  | .lumaIntra => .lumaIntra
  | .chroma _ => .chroma
  | .chromaIntra => .chromaIntra

/-- The command an instruction stands for. -/
def commandOf : Instr → Command
  | .filterLumaV o t => ⟨.luma t, .vertical, o⟩
  | .filterLumaH o t => ⟨.luma t, .horizontal, o⟩
  | .filterLumaIntraV o => ⟨.lumaIntra, .vertical, o⟩
  | .filterLumaIntraH o => ⟨.lumaIntra, .horizontal, o⟩
  | .filterChromaV o t => ⟨.chroma t, .vertical, o⟩
  | .filterChromaH o t => ⟨.chroma t, .horizontal, o⟩
  | .filterChromaIntraV o => ⟨.chromaIntra, .vertical, o⟩
  | .filterChromaIntraH o => ⟨.chromaIntra, .horizontal, o⟩

/-! ## Positions -/

/-- A position of a Line, named by its distance from the edge (20 R64). -/
inductive Pos where
  | p3
  | p2
  | p1
  | p0
  | q0
  | q1
  | q2
  | q3
deriving DecidableEq, Repr

/-- The signed offset `k` of a position: `q_i` at i, `p_i` at -(i + 1) (20 R64). -/
def Pos.offset : Pos → Int
  | .p3 => -4
  | .p2 => -3
  | .p1 => -2
  | .p0 => -1
  | .q0 => 0
  | .q1 => 1
  | .q2 => 2
  | .q3 => 3

/-- The Line register of a position. -/
def Line.get (l : Line) : Pos → Byte
  | .p3 => l.p3
  | .p2 => l.p2
  | .p1 => l.p1
  | .p0 => l.p0
  | .q0 => l.q0
  | .q1 => l.q1
  | .q2 => l.q2
  | .q3 => l.q3

/-- `pos(k) <- v` on a Line's registers (00_scope R18). -/
def Line.set (l : Line) (v : Byte) : Pos → Line
  | .p3 => { l with p3 := v }
  | .p2 => { l with p2 := v }
  | .p1 => { l with p1 := v }
  | .p0 => { l with p0 := v }
  | .q0 => { l with q0 := v }
  | .q1 => { l with q1 := v }
  | .q2 => { l with q2 := v }
  | .q3 => { l with q3 := v }

/-- `K_req` of a kind, ascending: the positions that must be valid (20 R65). -/
def kReq : Kind → List Pos
  | .luma => [.p3, .p2, .p1, .p0, .q0, .q1, .q2, .q3]
  | .lumaIntra => [.p3, .p2, .p1, .p0, .q0, .q1, .q2, .q3]
  | .chroma => [.p2, .p1, .p0, .q0, .q1, .q2]
  | .chromaIntra => [.p2, .p1, .p0, .q0, .q1, .q2]

/-- `K_read` of a kind, ascending: the positions the unit reads (20 R65). -/
def kRead : Kind → List Pos
  | .luma => [.p2, .p1, .p0, .q0, .q1, .q2]
  | .lumaIntra => [.p3, .p2, .p1, .p0, .q0, .q1, .q2, .q3]
  | .chroma => [.p1, .p0, .q0, .q1]
  | .chromaIntra => [.p1, .p0, .q0, .q1]

/-- `K_write` of a kind, ascending: the positions the unit may modify (20 R65). -/
def kWrite : Kind → List Pos
  | .luma => [.p1, .p0, .q0, .q1]
  | .lumaIntra => [.p2, .p1, .p0, .q0, .q1, .q2]
  | .chroma => [.p0, .q0]
  | .chromaIntra => [.p0, .q0]

/-- The number of Lines of an edge (46 R220). -/
def lineCount : Kind → Nat
  | .luma => Config.lumaLines
  | .lumaIntra => Config.lumaLines
  | .chroma => Config.chromaLines
  | .chromaIntra => Config.chromaLines

/-! ## Groups -/

/-- The group `g(j)` of Line j (40 R124). -/
def groupOf (k : Kind) (j : Nat) : Nat :=
  match k with
  | .luma => j / Config.lumaGroupLines
  | .lumaIntra => j / Config.lumaGroupLines
  | .chroma => j / Config.chromaGroupLines
  | .chromaIntra => j / Config.chromaGroupLines

/-- `tc0[g]`, for g = 0..3. -/
def tc0Entry (t : Tc0) (g : Nat) : Int :=
  match g with
  | 0 => t.t0
  | 1 => t.t1
  | 2 => t.t2
  | _ => t.t3

/-- The tc0 value that governs Line j of a command, none for the intra kinds (10_state R42, 30 R94). -/
def lineTc0 (f : Filter) (j : Nat) : Option Int :=
  match f with
  | .luma t => some (tc0Entry t (groupOf .luma j))
  | .lumaIntra => none
  | .chroma t => some (tc0Entry t (groupOf .chroma j))
  | .chromaIntra => none

/-! ## Address generation -/

/-- `X`, the address step across the edge (45 R201). -/
def acrossStep (c : Command) : Int :=
  match c.dir with
  | .vertical => 1
  | .horizontal => c.ops.stride

/-- `Y`, the address step from one Line to the next (45 R201). -/
def lineStep (c : Command) : Int :=
  match c.dir with
  | .vertical => c.ops.stride
  | .horizontal => 1

/-- `a(j, k)`, computed in the integers (45 R201). -/
def siteAddr (c : Command) (j : Nat) (p : Pos) : Int :=
  c.ops.edgePtr + (j : Int) * lineStep c + p.offset * acrossStep c

/-- A position of a Line of a command, with its address. -/
structure Site where
  line : Nat
  pos : Pos
  addr : Int
deriving DecidableEq, Repr

/-- The sites of a position set, Lines ascending, then positions ascending (20 R67). -/
def sites (c : Command) (ks : List Pos) : List Site :=
  (List.range (lineCount c.filter.kind)).flatMap fun j => ks.map fun p => ⟨j, p, siteAddr c j p⟩

/-- The footprint of a command (20 R66). -/
def footprint (c : Command) : List Site :=
  sites c (kReq c.filter.kind)

/-- The address is one of PLANE (20 R60): within [0, 2^32) and in one of the regions. The comparisons after the first
are of naturals, so that the kernel never counts down from 2^32. -/
def inPlane (plane : List Region) (a : Int) : Bool :=
  decide (0 ≤ a) && decide (a.toNat < Config.addressCount) &&
    plane.any fun r => decide (r.base ≤ a.toNat) && decide (a.toNat < r.base + r.size)

/-- The first site, in order, whose address is not valid (20 R67). -/
def firstInvalid (plane : List Region) (l : List Site) : Option Site :=
  l.find? fun x => !inPlane plane x.addr

/-- The first coinciding pair of sites: the least first member, then the least second (20 R68). -/
def firstOverlap : List Site → Option (Site × Site)
  | [] => none
  | x :: rest =>
    match rest.find? fun y => decide (y.addr = x.addr) with
    | some y => some (x, y)
    | none => firstOverlap rest

/-- The fault of a command at perform, none if its preconditions hold: validity first, then distinctness (46 R226, 60 R257). -/
def performFault (plane : List Region) (c : Command) : Option Fault :=
  match firstInvalid plane (footprint c) with
  | some x => some (.outOfPlane x.addr)
  | none =>
    match firstOverlap (footprint c) with
    | some (x, y) => some (.footprintOverlap x.line x.pos.offset y.line y.pos.offset)
    | none => none

end Sys2Proof.Machine
end

