-- ==== Sys2Proof/Machine/Flags.lean ====
section
/-! DEFINITION. The Threshold/Mask Unit (40_mask_unit) and every per-Line flag: `filterEdge`, `ap`, `aq`, the luma strong
filter's small-gap test `sg`, and the Line enable `en`. -/

namespace Sys2Proof.Machine

/-- `filterEdge` (R120); every comparison is strict. -/
def filterEdge (l : Line) (alpha beta : Int) : Bool :=
  decide (absInt (zext8 l.p0 - zext8 l.q0) < alpha) &&
    decide (absInt (zext8 l.p1 - zext8 l.p0) < beta) &&
    decide (absInt (zext8 l.q1 - zext8 l.q0) < beta)

/-- `ap` of a luma Line (R121). -/
def softP (l : Line) (beta : Int) : Bool :=
  decide (absInt (zext8 l.p2 - zext8 l.p0) < beta)

/-- `aq` of a luma Line (R121). -/
def softQ (l : Line) (beta : Int) : Bool :=
  decide (absInt (zext8 l.q2 - zext8 l.q0) < beta)

/-- `sg` of a Line of the luma strong filter (42_luma_strong R160). -/
def smallGap (l : Line) (alpha : Int) : Bool :=
  decide (absInt (zext8 l.p0 - zext8 l.q0) < asr alpha 2 + 2)

/-- The mask unit's input `luma` (R122). -/
def isLuma : Kind → Bool
  | .luma => true
  | .lumaIntra => true
  | .chroma => false
  | .chromaIntra => false

/-- `en` from `filterEdge` and the Line's tc0, which only the normal kinds have (R125). -/
def lineEnable (fe : Bool) (tc : Option Int) : Bool :=
  match tc with
  | some t => fe && !decide (t = -1)
  | none => fe

/-- The flags of Line j of a command: `ap`, `aq` are 0 for chroma (R122); `sg` is produced by the luma strong filter
alone (10_state R41), so for the other kinds its register keeps what it held (entry 6). -/
def lineFlags (c : Command) (j : Nat) (l : Line) (old : LineFlags) : LineFlags :=
  { filterEdge := filterEdge l c.ops.alpha c.ops.beta
    ap := isLuma c.filter.kind && softP l c.ops.beta
    aq := isLuma c.filter.kind && softQ l c.ops.beta
    sg := match c.filter with
      | .luma _ => old.sg
      | .lumaIntra => smallGap l c.ops.alpha
      | .chroma _ => old.sg
      | .chromaIntra => old.sg
    en := lineEnable (filterEdge l c.ops.alpha c.ops.beta) (lineTc0 c.filter j) }

end Sys2Proof.Machine
end

