-- ==== Sys2Proof/Machine/Ops.lean ====
section
/-! DEFINITION. The named operations over the plane, the Line registers and the engines. The engine takes no exception and
returns from none (60_exceptions R250, R258 to R260), so there is no exception entry here: a precondition violation is the
fault outcome of a step (R252), which no state follows. -/

namespace Sys2Proof.Machine

/-! ## The plane -/

/-- Samples of the plane: cells with rising addresses, none equal to what an unlisted address reads as. -/
abbrev Memory := List Host.Cell

/-- What an unlisted address reads as (entry 8: DESIGN CHOICE). -/
def unlistedSample : Byte := 0#8

/-- `MemRead(a, 1)` (00_scope R16). -/
def memRead (m : Memory) (a : Nat) : Byte :=
  match m with
  | [] => unlistedSample
  | c :: rest => if c.1 = a then c.2 else memRead rest a

/-- A cell put at its place in rising order, in the place of the cell of the same address. -/
def memInsert (m : Memory) (a : Nat) (v : Byte) : Memory :=
  match m with
  | [] => [(a, v)]
  | c :: rest =>
    if a < c.1 then (a, v) :: c :: rest
    else if a = c.1 then (a, v) :: rest
    else c :: memInsert rest a v

/-- `MemWrite(a, 1, v)` (00_scope R16), keeping the canonical form. -/
def memWrite (m : Memory) (a : Nat) (v : Byte) : Memory :=
  if v = unlistedSample then m.filter fun c => !decide (c.1 = a) else memInsert m a v

/-- Addresses strictly rise from `lo` on and no cell equals what an unlisted address reads as. -/
def memCanonical (lo : Nat) (m : Memory) : Bool :=
  match m with
  | [] => true
  | c :: rest => decide (lo ≤ c.1) && !decide (c.2 = unlistedSample) && memCanonical (c.1 + 1) rest

/-- The canonical form of the plane's samples. -/
def Memory.wf (m : Memory) : Bool :=
  memCanonical 0 m

/-- A list of stores, first to last. -/
def memWrites (m : Memory) (ws : List Host.Cell) : Memory :=
  ws.foldl (fun acc w => memWrite acc w.1 w.2) m

/-! ## Gather and scatter -/

/-- Gather one Line: the registers of `K_read` take the plane's samples, the others keep what they hold (45 R202). -/
def gatherLine (c : Command) (m : Memory) (j : Nat) (l : Line) : Line :=
  (kRead c.filter.kind).foldl (fun acc p => Line.set acc (memRead m (siteAddr c j p).toNat) p) l

/-- A list indexed by the sixteen Lines, rebuilt for the Lines below `n` and kept for the others. -/
def updateLines {α : Type} (n : Nat) (dflt : α) (f : Nat → α → α) (old : List α) : List α :=
  (List.range Config.lumaLines).map fun j => if j < n then f j (old.getD j dflt) else old.getD j dflt

/-- Gather every Line of a command (45 R202). -/
def gatherLines (c : Command) (m : Memory) (old : List Line) : List Line :=
  updateLines (lineCount c.filter.kind) zeroLine (gatherLine c m) old

/-- The mask flags of every Line of a command from its gathered Lines (10_state R41). -/
def gatherFlags (c : Command) (lines : List Line) (old : List LineFlags) : List LineFlags :=
  updateLines (lineCount c.filter.kind) zeroFlags
    (fun j f => lineFlags c j (lines.getD j zeroLine) f) old

/-- The parameters a command loads; an intra command leaves the tc0 registers alone (10_state R42). -/
def loadParams (c : Command) (old : Params) : Params :=
  { alpha := c.ops.alpha
    beta := c.ops.beta
    tc0 := match c.filter with
      | .luma t => t
      | .lumaIntra => old.tc0
      | .chroma t => t
      | .chromaIntra => old.tc0 }

/-! ## Engines -/

/-- The engine whose perform step is being taken. -/
def State.activeEngine (s : State) : Engine :=
  s.engines.getD s.active Engine.reset

/-- Engine `e` holds a command in flight. -/
def State.busyAt (s : State) (e : Nat) : Bool :=
  (s.engines.getD e Engine.reset).busy

/-- The lowest-numbered engine that is busy. -/
def State.firstBusy (s : State) : Option Nat :=
  (List.range s.engines.length).find? fun e => s.busyAt e

/-- Put an engine at an index; nothing changes where there is none. -/
def State.setEngine (s : State) (e : Nat) (eng : Engine) : State :=
  { s with engines := s.engines.set e eng }

/-- The in-flight latch filled with the next four free values (10_state R39: "`IF` becomes unspecified"; entry 4). -/
def freeDescriptor (n : Nat) : Descriptor :=
  { ctrl := Config.freeWord n
    tc0 := Config.freeWord (n + 1)
    addr := Config.freeWord (n + 2)
    stride := Config.freeWord (n + 3) }

/-! ## In-flight commands -/

/-- The command an engine has in flight, none when it is idle. -/
def inFlight (e : Engine) : Option Command :=
  if e.busy then (decode e.inflight).toOption.map commandOf else none

/-- The footprint addresses of the command an engine has in flight (20 R66), none when it is idle. -/
def inFlightFootprint (e : Engine) : List Int :=
  match inFlight e with
  | some c => (footprint c).map Site.addr
  | none => []

/-- Two address lists share an address. -/
def sharesAddress (l r : List Int) : Bool :=
  l.any fun a => r.any fun b => decide (a = b)

end Sys2Proof.Machine
end

