-- ==== Sys2Proof/Machine/LumaNormal.lean ====
section
/-! DEFINITION. The Luma Normal Filter's datapath for one Line (41_luma_normal). Every right-hand side reads the Line's
original samples (R147). -/

namespace Sys2Proof.Machine

/-- The unclipped centre delta of the normal filters (R142, 43_chroma_normal R182). -/
def rawDelta (l : Line) : Int :=
  asr ((zext8 l.q0 - zext8 l.p0) * 4 + (zext8 l.p1 - zext8 l.q1) + 4) 3

/-- `delta`, clipped to the bound `tC` (R142). -/
def centreDelta (tC : Int) (l : Line) : Int :=
  clip (rawDelta l) (-tC) tC

/-- `tC` of the luma normal filter (R141). -/
def lumaClipBound (f : LineFlags) (tc0 : Int) : Int :=
  tc0 + boolInt f.ap + boolInt f.aq

/-- `m = (p0 + q0 + 1) >> 1` (R144). -/
def centreMean (l : Line) : Int :=
  asr (zext8 l.p0 + zext8 l.q0 + 1) 1

/-- A second sample moved toward the mean of its outer neighbour and the centre mean, by at most `tc0` (R144, R145). -/
def secondSample (tc0 outer second mean : Int) : Int :=
  second + clip (asr (outer + mean - 2 * second) 1) (-tc0) tc0

/-- The Luma Normal Filter on one Line (R140 to R146). -/
def lumaNormalLine (f : LineFlags) (tc0 : Int) (l : Line) : Line :=
  { l with
    p1 := sel (f.en && f.ap) (toSample (secondSample tc0 (zext8 l.p2) (zext8 l.p1) (centreMean l))) l.p1
    p0 := sel f.en (toSample (zext8 l.p0 + centreDelta (lumaClipBound f tc0) l)) l.p0
    q0 := sel f.en (toSample (zext8 l.q0 - centreDelta (lumaClipBound f tc0) l)) l.q0
    q1 := sel (f.en && f.aq) (toSample (secondSample tc0 (zext8 l.q2) (zext8 l.q1) (centreMean l))) l.q1 }

end Sys2Proof.Machine
end

