-- ==== Sys2Proof/Machine/ChromaNormal.lean ====
section
/-! DEFINITION. The Chroma Normal Filter's datapath for one Line (43_chroma_normal): the luma normal filter's centre formula
with the caller's tc0 as the bound, unmodified (R181). -/

namespace Sys2Proof.Machine

/-- The Chroma Normal Filter on one Line (R180 to R184). -/
def chromaNormalLine (f : LineFlags) (tc0 : Int) (l : Line) : Line :=
  { l with
    p0 := sel f.en (toSample (zext8 l.p0 + centreDelta tc0 l)) l.p0
    q0 := sel f.en (toSample (zext8 l.q0 - centreDelta tc0 l)) l.q0 }

end Sys2Proof.Machine
end

