-- ==== Sys2Proof/Machine/LumaStrong.lean ====
section
/-! DEFINITION. The Luma Strong Filter's datapath for one Line (42_luma_strong, with 90_conflicts C2 and C3 as resolved).
The q side is the p side with p and q exchanged (R165, R166), so each formula is written once, on the samples of one side
`n3 n2 n1 n0` (from the outside to the edge) and the near samples `f0 f1` of the other. -/

namespace Sys2Proof.Machine

/-- Three-sample update of the centre sample (R163, R165). -/
def strongCentre (n2 n1 n0 f0 f1 : Int) : Int :=
  asr (n2 + 2 * n1 + 2 * n0 + 2 * f0 + f1 + 4) 3

/-- Three-sample update of the second sample (R163, R165). -/
def strongSecond (n2 n1 n0 f0 : Int) : Int :=
  asr (n2 + n1 + n0 + f0 + 2) 2

/-- Three-sample update of the third sample (R163, R165). -/
def strongThird (n3 n2 n1 n0 f0 : Int) : Int :=
  asr (2 * n3 + 3 * n2 + n1 + n0 + f0 + 4) 3

/-- One-sample update of the centre sample (R164, R166, and the Chroma Strong Filter, 44_chroma_strong R191). That the luma form takes
`f1` and not the other side's centre sample follows 90_conflicts C3 (entry 16: PRESUMED by the spec). -/
def weakCentre (n1 n0 f1 : Int) : Int :=
  asr (2 * n1 + n0 + f1 + 2) 2

/-- The p side takes the three-sample update: `sp = ap ∧ sg` (R161). -/
def selectP (f : LineFlags) : Bool :=
  f.ap && f.sg

/-- The q side takes the three-sample update: `sq = aq ∧ sg` (R161). -/
def selectQ (f : LineFlags) : Bool :=
  f.aq && f.sg

/-- The Luma Strong Filter on one Line (R160 to R167); both updates of a side are computed and one selected (R169). -/
def lumaStrongLine (f : LineFlags) (l : Line) : Line :=
  { l with
    p2 := sel (f.en && selectP f)
      (toSample (strongThird (zext8 l.p3) (zext8 l.p2) (zext8 l.p1) (zext8 l.p0) (zext8 l.q0))) l.p2
    p1 := sel (f.en && selectP f)
      (toSample (strongSecond (zext8 l.p2) (zext8 l.p1) (zext8 l.p0) (zext8 l.q0))) l.p1
    p0 := sel f.en
      (sel (selectP f)
        (toSample (strongCentre (zext8 l.p2) (zext8 l.p1) (zext8 l.p0) (zext8 l.q0) (zext8 l.q1)))
        (toSample (weakCentre (zext8 l.p1) (zext8 l.p0) (zext8 l.q1)))) l.p0
    q0 := sel f.en
      (sel (selectQ f)
        (toSample (strongCentre (zext8 l.q2) (zext8 l.q1) (zext8 l.q0) (zext8 l.p0) (zext8 l.p1)))
        (toSample (weakCentre (zext8 l.q1) (zext8 l.q0) (zext8 l.p1)))) l.q0
    q1 := sel (f.en && selectQ f)
      (toSample (strongSecond (zext8 l.q2) (zext8 l.q1) (zext8 l.q0) (zext8 l.p0))) l.q1
    q2 := sel (f.en && selectQ f)
      (toSample (strongThird (zext8 l.q3) (zext8 l.q2) (zext8 l.q1) (zext8 l.q0) (zext8 l.p0))) l.q2 }

end Sys2Proof.Machine
end

