-- ==== Sys2Proof/Machine/ChromaStrong.lean ====
section
/-! DEFINITION. The Chroma Strong Filter's datapath for one Line (44_chroma_strong). -/

namespace Sys2Proof.Machine

/-- The Chroma Strong Filter on one Line (R190 to R192). -/
def chromaStrongLine (f : LineFlags) (l : Line) : Line :=
  { l with
    p0 := sel f.en (toSample (weakCentre (zext8 l.p1) (zext8 l.p0) (zext8 l.q1))) l.p0
    q0 := sel f.en (toSample (weakCentre (zext8 l.q1) (zext8 l.q0) (zext8 l.p1))) l.q0 }

end Sys2Proof.Machine
end

