-- ==== Sys2Proof/Machine/Perform.lean ====
section
/-! DEFINITION. The multiplexer (45_orientation_adapter R203) and the perform step every command shares (46_commands R220). -/

namespace Sys2Proof.Machine

/-- Every Line goes to the filter unit of the command's kind, with that Line's flags and tc0 (45 R203). -/
def filterLine (f : Filter) (fl : LineFlags) (j : Nat) (l : Line) : Line :=
  match f with
  | .luma t => lumaNormalLine fl (tc0Entry t (groupOf .luma j)) l
  | .lumaIntra => lumaStrongLine fl l
  | .chroma t => chromaNormalLine fl (tc0Entry t (groupOf .chroma j)) l
  | .chromaIntra => chromaStrongLine fl l

/-- `line_<kind>` of 46 R221 to R224: the unit's result for Line j from the Line's registers; `old` is what the flag
registers held. -/
def lineResult (c : Command) (j : Nat) (old : LineFlags) (l : Line) : Line :=
  filterLine c.filter (lineFlags c j l old) j l

/-- The stores of Line j: its `K_write` positions, with the unit's results (45 R204). `gathered` are the Line's registers
after the gather. -/
def lineStores (c : Command) (j : Nat) (old : LineFlags) (gathered : Line) : List Host.Cell :=
  (kWrite c.filter.kind).map fun p =>
    ((siteAddr c j p).toNat, Line.get (lineResult c j old gathered) p)

/-- The stores of a command performed by engine `e` on the plane `m`: all reads are taken from `m` (20 R69). -/
def commandStores (c : Command) (m : Memory) (e : Engine) : List Host.Cell :=
  (List.range (lineCount c.filter.kind)).flatMap fun j =>
    lineStores c j (e.flags.getD j zeroFlags) (gatherLine c m j (e.lines.getD j zeroLine))

/-- The engine after a completed command: idle, its latch unspecified (10_state R39), its transient registers as the
command loaded them (entry 6), its interface registers unchanged (R43). -/
def completedEngine (c : Command) (m : Memory) (draws : Nat) (e : Engine) : Engine :=
  { e with
    busy := false
    inflight := freeDescriptor draws
    lines := gatherLines c m e.lines
    flags := gatherFlags c (gatherLines c m e.lines) e.flags
    params := loadParams c e.params }

/-- The state after a command of the active engine completes (46 R220). -/
def completed (c : Command) (s : State) : State :=
  { s with
    mem := memWrites s.mem (commandStores c s.mem s.activeEngine)
    engines := s.engines.set s.active (completedEngine c s.mem s.draws s.activeEngine)
    draws := s.draws + 4 }

/-- The perform step (46 R220): the preconditions, in the order of R226, then the whole command at once. -/
def perform (c : Command) (s : State) : Host.Outcome State Fault Refusal :=
  match performFault s.plane c with
  | some r => .fault r
  | none => .next (completed c s)

end Sys2Proof.Machine
end

