-- ==== Sys2Proof/Machine/FilterChroma.lean ====
section
/-! DEFINITION. The meanings of `filter_chroma.v` and `filter_chroma.h` (46_commands R234, R235): the shared perform step with the
Chroma Normal Filter. -/

namespace Sys2Proof.Machine

/-- `filter_chroma.v`: vertical edge, Lines are rows (46 R234). -/
def execFilterChromaV (o : EdgeOperands) (t : Tc0) (s : State) : Host.Outcome State Fault Refusal :=
  perform ⟨.chroma t, .vertical, o⟩ s

/-- `filter_chroma.h`: horizontal edge, Lines are columns (46 R235). -/
def execFilterChromaH (o : EdgeOperands) (t : Tc0) (s : State) : Host.Outcome State Fault Refusal :=
  perform ⟨.chroma t, .horizontal, o⟩ s

end Sys2Proof.Machine
end

