-- ==== Sys2Proof/Machine/FilterChromaIntra.lean ====
section
/-! DEFINITION. The meanings of `filter_chroma_intra.v` and `filter_chroma_intra.h` (46_commands R236, R237): the shared perform step with the
Chroma Strong Filter. -/

namespace Sys2Proof.Machine

/-- `filter_chroma_intra.v`: vertical edge, Lines are rows (46 R236). -/
def execFilterChromaIntraV (o : EdgeOperands) (s : State) : Host.Outcome State Fault Refusal :=
  perform ⟨.chromaIntra, .vertical, o⟩ s

/-- `filter_chroma_intra.h`: horizontal edge, Lines are columns (46 R237). -/
def execFilterChromaIntraH (o : EdgeOperands) (s : State) : Host.Outcome State Fault Refusal :=
  perform ⟨.chromaIntra, .horizontal, o⟩ s

end Sys2Proof.Machine
end

