-- ==== Sys2Proof/Machine/FilterLuma.lean ====
section
/-! DEFINITION. The meanings of `filter_luma.v` and `filter_luma.h` (46_commands R230, R231): the shared perform step with the
Luma Normal Filter. -/

namespace Sys2Proof.Machine

/-- `filter_luma.v`: vertical edge, Lines are rows (46 R230). -/
def execFilterLumaV (o : EdgeOperands) (t : Tc0) (s : State) : Host.Outcome State Fault Refusal :=
  perform ⟨.luma t, .vertical, o⟩ s

/-- `filter_luma.h`: horizontal edge, Lines are columns (46 R231). -/
def execFilterLumaH (o : EdgeOperands) (t : Tc0) (s : State) : Host.Outcome State Fault Refusal :=
  perform ⟨.luma t, .horizontal, o⟩ s

end Sys2Proof.Machine
end

