-- ==== Sys2Proof/Machine/FilterLumaIntra.lean ====
section
/-! DEFINITION. The meanings of `filter_luma_intra.v` and `filter_luma_intra.h` (46_commands R232, R233): the shared perform step with the
Luma Strong Filter. -/

namespace Sys2Proof.Machine

/-- `filter_luma_intra.v`: vertical edge, Lines are rows (46 R232). -/
def execFilterLumaIntraV (o : EdgeOperands) (s : State) : Host.Outcome State Fault Refusal :=
  perform ⟨.lumaIntra, .vertical, o⟩ s

/-- `filter_luma_intra.h`: horizontal edge, Lines are columns (46 R233). -/
def execFilterLumaIntraH (o : EdgeOperands) (s : State) : Host.Outcome State Fault Refusal :=
  perform ⟨.lumaIntra, .horizontal, o⟩ s

end Sys2Proof.Machine
end

