-- ==== Sys2Proof/Machine/Dispatch.lean ====
section
/-! DEFINITION. The dispatch of a command to its meaning (46_commands R230 to R237), one arm per row of the opcode table. -/

namespace Sys2Proof.Machine

def exec (i : Instr) (s : State) : Host.Outcome State Fault Refusal :=
  match i with
  | .filterLumaV o t => Sys2Proof.Machine.execFilterLumaV o t s
  | .filterLumaH o t => Sys2Proof.Machine.execFilterLumaH o t s
  | .filterLumaIntraV o => Sys2Proof.Machine.execFilterLumaIntraV o s
  | .filterLumaIntraH o => Sys2Proof.Machine.execFilterLumaIntraH o s
  | .filterChromaV o t => Sys2Proof.Machine.execFilterChromaV o t s
  | .filterChromaH o t => Sys2Proof.Machine.execFilterChromaH o t s
  | .filterChromaIntraV o => Sys2Proof.Machine.execFilterChromaIntraV o s
  | .filterChromaIntraH o => Sys2Proof.Machine.execFilterChromaIntraH o s

end Sys2Proof.Machine
end

