-- ==== Sys2Proof/Machine/HostPort.lean ====
section
/-! DEFINITION. The host's side of an engine: the interface registers (10_state R33 to R39), GO, reset (R46, R280, R281) and
the host's own plane accesses (20_memory R72, R73). -/

namespace Sys2Proof.Machine

/-! ## Interface registers -/

/-- What a host read of a register returns: the last value written, BUSY in bit 0 of `STATUS` (R34, R38); nothing for a
descriptor register never written since reset, whose read is a draw (R46). -/
def regRead (eng : Engine) (r : RegIndex) : Option Word :=
  match r with
  | .cmdCtrl => if eng.wr.ctrl then some eng.staged.ctrl else none
  | .cmdTc0 => if eng.wr.tc0 then some eng.staged.tc0 else none
  | .cmdAddr => if eng.wr.addr then some eng.staged.addr else none
  | .cmdStride => if eng.wr.stride then some eng.staged.stride else none
  | .status => some (if eng.busy then 1#32 else 0#32)

/-- A host write to a descriptor register: the staging register and its written flag (R34 to R37, R45). The value
written to `STATUS` is ignored (R38). -/
def stageWrite (eng : Engine) (r : RegIndex) (v : Word) : Engine :=
  match r with
  | .cmdCtrl => { eng with staged := { eng.staged with ctrl := v }, wr := { eng.wr with ctrl := true } }
  | .cmdTc0 => { eng with staged := { eng.staged with tc0 := v }, wr := { eng.wr with tc0 := true } }
  | .cmdAddr => { eng with staged := { eng.staged with addr := v }, wr := { eng.wr with addr := true } }
  | .cmdStride => { eng with staged := { eng.staged with stride := v }, wr := { eng.wr with stride := true } }
  | .status => eng

/-- The lowest descriptor register never written since reset (60 R254). -/
def firstUnwritten (w : Written) : Option Nat :=
  if !w.ctrl then some 0
  else if !w.tc0 then some 1
  else if !w.addr then some 2
  else if !w.stride then some 3
  else none

/-- The lowest-numbered other engine whose in-flight footprint has an address of `fp` (60 R268). -/
def sharingEngine (s : State) (e : Nat) (fp : List Int) : Option Nat :=
  (List.range s.engines.length).find? fun o =>
    !decide (o = e) && sharesAddress (inFlightFootprint (s.engines.getD o Engine.reset)) fp

/-- The engine with its staging registers copied into the latch and BUSY set (R38). -/
def latched (eng : Engine) : Engine :=
  { eng with busy := true, inflight := eng.staged }

/-- GO on an idle engine (R38): reserved encodings are refused, then an unwritten descriptor register faults (60 R257),
then the descriptor is latched. A GO that would put two engines on one address breaks the host's duty (60 R268). -/
def go (e : Nat) (eng : Engine) (s : State) : Host.Outcome State Fault Refusal :=
  match decode eng.staged with
  | .error .reservedEncoding => .refused .reservedEncoding
  | .ok i =>
    match firstUnwritten eng.wr with
    | some k => .fault (.unwrittenDescriptor k)
    | none =>
      match sharingEngine s e ((footprint (commandOf i)).map Site.addr) with
      | some o => .refused (.footprintsShared e o)
      | none => .next (s.setEngine e (latched eng))

/-- A host write to a register of an engine; to `STATUS` it is a GO (R33, R38). The engine is idle when a GO gets here:
a GO on a busy engine is held (Turn.lean). -/
def hostWrite (e : Nat) (r : RegIndex) (v : Word) (s : State) : Host.Outcome State Fault Refusal :=
  match s.engines[e]? with
  | none => .refused (.noSuchEngine e)
  | some eng =>
    match r with
    | .status => go e eng s
    | .cmdCtrl => .next (s.setEngine e (stageWrite eng .cmdCtrl v))
    | .cmdTc0 => .next (s.setEngine e (stageWrite eng .cmdTc0 v))
    | .cmdAddr => .next (s.setEngine e (stageWrite eng .cmdAddr v))
    | .cmdStride => .next (s.setEngine e (stageWrite eng .cmdStride v))

/-- A host read of a register; of an unwritten descriptor register it returns the next free value (R46, 93 U7). -/
def hostRead (e : Nat) (r : RegIndex) (s : State) : Host.Outcome State Fault Refusal :=
  match s.engines[e]? with
  | none => .refused (.noSuchEngine e)
  | some eng =>
    match regRead eng r with
    | some v => .next { s with readData := v }
    | none => .next { s with readData := Config.freeWord s.draws, draws := s.draws + 1 }

/-! ## Plane accesses -/

/-- Address `a` is in the footprint of some in-flight command (20 R72). -/
def inFlightTouches (s : State) (a : Nat) : Bool :=
  s.engines.any fun eng => (inFlightFootprint eng).any fun x => decide (x = (a : Int))

/-- Why a host access to plane address `a` has no meaning: outside PLANE, or in a footprint in flight (20 R72). -/
def hostAccessRefusal (s : State) (a : Nat) : Option Refusal :=
  if !inPlane s.plane (a : Int) then some (.hostOutsidePlane a)
  else if inFlightTouches s a then some (.hostTouchesFootprint a)
  else none

/-- The host stores a sample (20 R73). -/
def hostPlaneWrite (a : Nat) (v : Byte) (s : State) : Host.Outcome State Fault Refusal :=
  match hostAccessRefusal s a with
  | some r => .refused r
  | none => .next { s with mem := memWrite s.mem a v }

/-- The host reads a sample (20 R73). -/
def hostPlaneRead (a : Nat) (s : State) : Host.Outcome State Fault Refusal :=
  match hostAccessRefusal s a with
  | some r => .refused r
  | none => .next { s with readData := (memRead s.mem a).setWidth 32 }

/-! ## Reset -/

/-- The stores of an abandoned command that took effect: one free bit for each (70 R281). -/
def drawnStores (n : Nat) (ws : List Host.Cell) : List Host.Cell :=
  match ws with
  | [] => []
  | w :: rest => if Config.freeBit n then w :: drawnStores (n + 1) rest else drawnStores (n + 1) rest

/-- The state after a reset of engine `e` abandoned the command `c` (70 R281). -/
def abandoned (e : Nat) (eng : Engine) (c : Command) (s : State) : State :=
  { s with
    mem := memWrites s.mem (drawnStores s.draws (commandStores c s.mem eng))
    engines := s.engines.set e Engine.reset
    draws := s.draws + (commandStores c s.mem eng).length }

/-- Reset of engine `e` (R46, R280). The plane is unchanged unless a command was in flight (R281); where that command's
preconditions fail it faults, since nothing is known of the plane (60 R252; entry 13). -/
def hostReset (e : Nat) (s : State) : Host.Outcome State Fault Refusal :=
  match s.engines[e]? with
  | none => .refused (.noSuchEngine e)
  | some eng =>
    match inFlight eng with
    | none => .next (s.setEngine e Engine.reset)
    | some c =>
      match performFault s.plane c with
      | some r => .fault r
      | none => .next (abandoned e eng c s)

/-! ## Issuing a command -/

/-- The host's moves that issue a command to engine `e`: four register writes and a GO (30 R98, 70 R282). -/
def issue (e : Nat) (i : Instr) : List Input :=
  [ .write e .cmdCtrl (encode i).ctrl,
    .write e .cmdTc0 (encode i).tc0,
    .write e .cmdAddr (encode i).addr,
    .write e .cmdStride (encode i).stride,
    .write e .status 0#32 ]

/-- A program is a list of commands, each issued in turn (30 R98). -/
def program (e : Nat) (is : List Instr) : List Input :=
  is.flatMap (issue e)

end Sys2Proof.Machine
end

