-- ==== Sys2Proof/Machine/Turn.lean ====
section
/-! DEFINITION. Which agent moves at a step, and its move (10_state R38; 20_memory R71; 70_reset_and_hazards R291). -/

namespace Sys2Proof.Machine

/-- Whose move a step is. -/
inductive Turn where
  /-- Nothing is pending and no engine is busy (60 R267). -/
  | idle
  /-- The host makes a move. -/
  | host (i : Input)
  /-- Engine `e` takes its perform step. -/
  | engine (e : Nat)
deriving DecidableEq, Repr

/-- The next turn and the moves still pending after it. A GO on a busy engine is held: it stays pending and the engine
performs (R38). With nothing pending the lowest-numbered busy engine performs, so that a command in flight completes
(R291; entry 9). -/
def nextTurn (s : State) : Turn × List Input :=
  match s.inputs with
  | [] =>
    match s.firstBusy with
    | some e => (.engine e, [])
    | none => (.idle, [])
  | i :: rest =>
    match i with
    | .perform e => (.engine e, rest)
    | .write e .status v => if s.busyAt e then (.engine e, i :: rest) else (.host (.write e .status v), rest)
    | .write e .cmdCtrl v => (.host (.write e .cmdCtrl v), rest)
    | .write e .cmdTc0 v => (.host (.write e .cmdTc0 v), rest)
    | .write e .cmdAddr v => (.host (.write e .cmdAddr v), rest)
    | .write e .cmdStride v => (.host (.write e .cmdStride v), rest)
    | .read e r => (.host (.read e r), rest)
    | .planeWrite a v => (.host (.planeWrite a v), rest)
    | .planeRead a => (.host (.planeRead a), rest)
    | .reset e => (.host (.reset e), rest)

/-- The perform step of engine `e`: the command in its latch (46 R220); an idle engine does nothing (60 R267). -/
def engineTurn (e : Nat) (s : State) : Host.Outcome State Fault Refusal :=
  match s.engines[e]? with
  | none => .refused (.noSuchEngine e)
  | some eng =>
    if eng.busy then
      match decode eng.inflight with
      | .ok i => exec i { s with active := e }
      | .error .reservedEncoding => .refused .reservedEncoding
    else .next s

/-- A move of the host. -/
def hostTurn (i : Input) (s : State) : Host.Outcome State Fault Refusal :=
  match i with
  | .write e r v => hostWrite e r v s
  | .read e r => hostRead e r s
  | .planeWrite a v => hostPlaneWrite a v s
  | .planeRead a => hostPlaneRead a s
  | .reset e => hostReset e s
  | .perform e => engineTurn e s

/-- One turn of the system. -/
def takeTurn (t : Turn) (s : State) : Host.Outcome State Fault Refusal :=
  match t with
  | .idle => .next s
  | .host i => hostTurn i s
  | .engine e => engineTurn e s

/-- A step: a marked state has no later step and answers its mark again (10_state R45, 60 R252); otherwise the next turn.
DESIGN CHOICE (entry 24): there is one mark for the whole system, so a fault or refusal of one engine ends the run of every
engine and of the host; the spec leaves open whether the others go on. -/
def systemStep (s : State) : Host.Outcome State Fault Refusal :=
  match s.outcome with
  | .fault r => .fault r
  | .refused r => .refused r
  | .ok => takeTurn (nextTurn s).1 { s with inputs := (nextTurn s).2 }

/-- A step as R45 records it: the next state, or this state with its outcome marked, for good. DESIGN CHOICE (entry 25): the
marked state keeps the samples, and everything else, of the state the step was taken from; after a fault the spec leaves the
plane unconstrained (00_scope R17, 60 R252). No step reads a marked state's plane. -/
def markedStep (s : State) (o : Host.Outcome State Fault Refusal) : State :=
  match o with
  | .next t => t
  | .fault r => { s with outcome := .fault r }
  | .refused r => { s with outcome := .refused r }

/-- An engine with a descriptor in flight. -/
def loadEngine (d : Descriptor) (eng : Engine) : Engine :=
  { eng with busy := true, inflight := d }

/-- The state in which the next step is engine 0's perform step of the descriptor `d` (entry 1). -/
def placeCommand (d : Descriptor) (s : State) : State :=
  { s with
    outcome := .ok
    inputs := .perform 0 :: s.inputs
    engines := match s.engines with
      | [] => [loadEngine d Engine.reset]
      | eng :: rest => loadEngine d eng :: rest }

end Sys2Proof.Machine
end

