-- ==== Sys2Proof/Machine/Step.lean ====
section
/-! DEFINITION. One step of the system, and the placing of a table word as the next command performed. -/

namespace Sys2Proof.Machine

/-- One step (Turn.lean). -/
def step (s : State) : Host.Outcome State Fault Refusal :=
  systemStep s

/-- `s` with the command of a table word in flight on engine 0 and that engine's perform step next (entries 1, 18). -/
def State.withFetchWord (s : State) (nbits w : Nat) : State :=
  placeCommand (tableDescriptor nbits w) s

end Sys2Proof.Machine
end

