-- ==== Sys2Proof/Safety.lean ====
section
/-! DEFINITION. What counts as a safe state of the system and when a command can be performed, in the terms the statements use. -/

namespace Sys2Proof.Safety

open Sys2Proof.Machine

/-- The plane's samples are in canonical form and at addresses of the address space (20_memory R60). -/
def memOk (s : State) : Bool :=
  Memory.wf s.mem && s.mem.all fun c => decide (c.1 < Config.addressCount)

/-- An engine in flight holds a legal descriptor, every descriptor register of it was written (30 R95, 60 R254), and
its transient register files have sixteen Lines (10_state R40, R41). -/
def engineOk (eng : Engine) : Bool :=
  (!eng.busy || ((decode eng.inflight).toOption.isSome && (firstUnwritten eng.wr).isNone)) &&
    decide (eng.lines.length = Config.lumaLines) && decide (eng.flags.length = Config.lumaLines)

/-- No address is in the footprints of two commands in flight (60 R268). -/
def footprintsDisjoint (s : State) : Prop :=
  ∀ e o, e ≠ o → sharesAddress (inFlightFootprint (s.engines.getD e Engine.reset))
    (inFlightFootprint (s.engines.getD o Engine.reset)) = false

/-- The invariant of the system. -/
structure Inv (s : State) : Prop where
  outcome : s.outcome = .ok
  mem : memOk s = true
  engines : ∀ eng ∈ s.engines, engineOk eng = true
  disjoint : footprintsDisjoint s

/-- The preconditions of a command hold on a plane (20_memory R67, R68). -/
def Performable (plane : List Region) (c : Command) : Prop :=
  (∀ x ∈ footprint c, inPlane plane x.addr = true) ∧
    (footprint c).Pairwise fun x y => x.addr ≠ y.addr

end Sys2Proof.Safety
end

