-- ==== Sys2Proof/Certificates/Slice0/Reference.lean ====
section
/-! DEFINITION. The words the statements use, written from the spec's rules and not from the model's definitions: the four line
functions of 46_commands R221 to R224 over integers, the two address formulas of R230 and R231, and a command's preconditions
(20_memory R67, R68) over a range of positions. -/

namespace Sys2Proof.Ref

open Sys2Proof.Machine

/-- `clip(v, lo, hi)` (00_scope R15). -/
def bound (v lo hi : Int) : Int :=
  if v < lo then lo else if hi < v then hi else v

/-- `filterEdge` of a Line whose sample at position k is `x k` (40 R120). -/
abbrev edge (x : Int → Int) (alpha beta : Int) : Prop :=
  |x (-1) - x 0| < alpha ∧ |x (-2) - x (-1)| < beta ∧ |x 1 - x 0| < beta

/-- `ap` (40 R121). -/
abbrev near (x : Int → Int) (beta : Int) : Prop :=
  |x (-3) - x (-1)| < beta

/-- `aq` (40 R121). -/
abbrev far (x : Int → Int) (beta : Int) : Prop :=
  |x 2 - x 0| < beta

/-- 1 for a true condition and 0 for a false one (00_scope R20). -/
def flag (p : Prop) [Decidable p] : Int :=
  if p then 1 else 0

/-- The unclipped centre delta (41 R142). -/
def raw (x : Int → Int) : Int :=
  ((x 0 - x (-1)) * 4 + (x (-2) - x 1) + 4) / 8

/-- `m` (46 R221). -/
def mean (x : Int → Int) : Int :=
  (x (-1) + x 0 + 1) / 2

/-- `line_LUMA` (46 R221): the sample at position k after the luma normal filter. -/
def lumaLine (x : Int → Int) (alpha beta t : Int) (k : Int) : Int :=
  if edge x alpha beta ∧ t ≠ -1 then
    let tC := t + flag (near x beta) + flag (far x beta)
    let delta := bound (raw x) (-tC) tC
    if k = -2 then
      if near x beta then x (-2) + bound ((x (-3) + mean x - 2 * x (-2)) / 2) (-t) t else x (-2)
    else if k = -1 then bound (x (-1) + delta) 0 255
    else if k = 0 then bound (x 0 - delta) 0 255
    else if k = 1 then
      if far x beta then x 1 + bound ((x 2 + mean x - 2 * x 1) / 2) (-t) t else x 1
    else x k
  else x k

/-- `sg` (42 R160). -/
abbrev gap (x : Int → Int) (alpha : Int) : Prop :=
  |x (-1) - x 0| < alpha / 4 + 2

/-- `line_LUMA_INTRA` (46 R222): the sample at position k after the luma strong filter. -/
def lumaIntraLine (x : Int → Int) (alpha beta : Int) (k : Int) : Int :=
  if edge x alpha beta then
    if k = -3 then
      if near x beta ∧ gap x alpha then (2 * x (-4) + 3 * x (-3) + x (-2) + x (-1) + x 0 + 4) / 8 else x (-3)
    else if k = -2 then
      if near x beta ∧ gap x alpha then (x (-3) + x (-2) + x (-1) + x 0 + 2) / 4 else x (-2)
    else if k = -1 then
      if near x beta ∧ gap x alpha then (x (-3) + 2 * x (-2) + 2 * x (-1) + 2 * x 0 + x 1 + 4) / 8
      else (2 * x (-2) + x (-1) + x 1 + 2) / 4
    else if k = 0 then
      if far x beta ∧ gap x alpha then (x 2 + 2 * x 1 + 2 * x 0 + 2 * x (-1) + x (-2) + 4) / 8
      else (2 * x 1 + x 0 + x (-2) + 2) / 4
    else if k = 1 then
      if far x beta ∧ gap x alpha then (x 2 + x 1 + x 0 + x (-1) + 2) / 4 else x 1
    else if k = 2 then
      if far x beta ∧ gap x alpha then (2 * x 3 + 3 * x 2 + x 1 + x 0 + x (-1) + 4) / 8 else x 2
    else x k
  else x k

/-- `line_CHROMA` (46 R223): the sample at position k after the chroma normal filter. -/
def chromaLine (x : Int → Int) (alpha beta t : Int) (k : Int) : Int :=
  if edge x alpha beta ∧ t ≠ -1 then
    if k = -1 then bound (x (-1) + bound (raw x) (-t) t) 0 255
    else if k = 0 then bound (x 0 - bound (raw x) (-t) t) 0 255
    else x k
  else x k

/-- `line_CHROMA_INTRA` (46 R224): the sample at position k after the chroma strong filter. -/
def chromaIntraLine (x : Int → Int) (alpha beta : Int) (k : Int) : Int :=
  if edge x alpha beta then
    if k = -1 then (2 * x (-2) + x (-1) + x 1 + 2) / 4
    else if k = 0 then (2 * x 1 + x 0 + x (-2) + 2) / 4
    else x k
  else x k

/-! ## Addresses and preconditions -/

/-- Vertical form: position k of row j at `edge_ptr + j*stride + k` (46 R230). -/
def rowAddr (o : EdgeOperands) (j : Nat) (k : Int) : Int :=
  o.edgePtr + (j : Int) * o.stride + k

/-- Horizontal form: position k of column j at `edge_ptr + j + k*stride` (46 R231). -/
def colAddr (o : EdgeOperands) (j : Nat) (k : Int) : Int :=
  o.edgePtr + (j : Int) + k * o.stride

/-- Every position `lo..hi` of every Line is a valid plane address (20 R67), and no two are at one address (20 R68). -/
structure EdgeOk (plane : List Region) (addr : Nat → Int → Int) (lines : Nat) (lo hi : Int) : Prop where
  valid : ∀ j < lines, ∀ k, lo ≤ k → k ≤ hi → inPlane plane (addr j k) = true
  distinct : ∀ j < lines, ∀ k, lo ≤ k → k ≤ hi → ∀ j' < lines, ∀ k', lo ≤ k' → k' ≤ hi →
    addr j k = addr j' k' → j = j' ∧ k = k'

/-- The sample at a plane address, as an integer. -/
def sample (s : State) (a : Int) : Int :=
  ((memRead s.mem a.toNat).toNat : Int)

/-- In every Line, the sample at each position `lo..hi` after is what the line function gives for the samples before. -/
def Filtered (s t : State) (addr : Nat → Int → Int) (lines : Nat) (lo hi : Int)
    (line : Nat → (Int → Int) → Int → Int) : Prop :=
  ∀ j < lines, ∀ k, lo ≤ k → k ≤ hi →
    sample t (addr j k) = line j (fun n => sample s (addr j n)) k

/-- Entry g of a tc0 list. -/
def entry (t : Tc0) (g : Nat) : Int :=
  [t.t0, t.t1, t.t2, t.t3].getD g 0

/-- The mirror image of a Line: p and q sides exchanged. -/
def mirror (l : Line) : Line :=
  ⟨l.q3, l.q2, l.q1, l.q0, l.p0, l.p1, l.p2, l.p3⟩

/-- All eight registers of a Line equal. -/
def smooth (v : Byte) : Line :=
  ⟨v, v, v, v, v, v, v, v⟩

/-- A normal-strength filter whose four tc0 entries are all `t`. -/
def uniform (t : Int) : Tc0 :=
  ⟨t, t, t, t⟩

end Sys2Proof.Ref
end

