-- ==== Sys2Proof/Machine/Assembler.lean ====
section
/-! DEFINITION. The assembler's text form of a command (30_encoding R97, R98): one line, the mnemonic, then
`edge_ptr, stride, alpha, beta`, and for the normal kinds the group list in braces; a semicolon begins a comment. -/

namespace Sys2Proof.Machine

/-- A token of an assembler line. -/
inductive Token where
  | word (w : List Char)
  | comma
  | openBrace
  | closeBrace
deriving DecidableEq, Repr

/-- The token a punctuation character is by itself (the braces are characters 123 and 125). -/
def punctuation (ch : Char) : Option Token :=
  if ch = ',' then some .comma
  else if ch = Char.ofNat 123 then some .openBrace
  else if ch = Char.ofNat 125 then some .closeBrace
  else none

/-- The word read so far, if any, as a token before the rest. -/
def endWord (word : List Char) (rest : List Token) : List Token :=
  match word with
  | [] => rest
  | _ :: _ => .word word.reverse :: rest

/-- The tokens of a line; `word` holds the characters of the current word, last first. A semicolon ends the line (R97). -/
def tokens (line word : List Char) : List Token :=
  match line with
  | [] => endWord word []
  | ch :: rest =>
    if ch = ';' then endWord word []
    else if ch = ' ' ∨ ch = '\t' then endWord word (tokens rest [])
    else
      match punctuation ch with
      | some t => endWord word (t :: tokens rest [])
      | none => tokens rest (ch :: word)

/-- The value of a digit in base 10 or 16. -/
def digit (base : Nat) (ch : Char) : Option Nat :=
  let n := ch.toNat
  let v := if 48 ≤ n ∧ n ≤ 57 then some (n - 48)
    else if 97 ≤ n ∧ n ≤ 102 then some (n - 87)
    else if 65 ≤ n ∧ n ≤ 70 then some (n - 55)
    else none
  v.filter fun d => decide (d < base)

/-- The value of a run of digits after `acc`. -/
def digits (base : Nat) (l : List Char) (acc : Nat) : Option Nat :=
  match l with
  | [] => some acc
  | ch :: rest =>
    match digit base ch with
    | some d => digits base rest (acc * base + d)
    | none => none

/-- A decimal or `0x` hexadecimal number without sign (R97). -/
def unsignedNumber (l : List Char) : Option Nat :=
  match l with
  | [] => none
  | '0' :: 'x' :: [] => none
  | '0' :: 'x' :: ch :: rest => digits 16 (ch :: rest) 0
  | ch :: rest => digits 10 (ch :: rest) 0

/-- An integer operand (R97). -/
def number (l : List Char) : Option Int :=
  match l with
  | '-' :: rest => (unsignedNumber rest).map fun n => -(n : Int)
  | rest => (unsignedNumber rest).map fun n => (n : Int)

/-- The kind and the form a mnemonic names (R91). -/
def mnemonicKind (l : List Char) : Option (Kind × Dir) :=
  if l = "filter_luma.v".toList then some (.luma, .vertical)
  else if l = "filter_luma.h".toList then some (.luma, .horizontal)
  else if l = "filter_luma_intra.v".toList then some (.lumaIntra, .vertical)
  else if l = "filter_luma_intra.h".toList then some (.lumaIntra, .horizontal)
  else if l = "filter_chroma.v".toList then some (.chroma, .vertical)
  else if l = "filter_chroma.h".toList then some (.chroma, .horizontal)
  else if l = "filter_chroma_intra.v".toList then some (.chromaIntra, .vertical)
  else if l = "filter_chroma_intra.h".toList then some (.chromaIntra, .horizontal)
  else none

/-- The group list after the four operands: present for the normal kinds, absent for the intra kinds (R97). -/
def groupList (k : Kind) (l : List Token) : Option Tc0 :=
  match k, l with
  | .lumaIntra, [] => some ⟨0, 0, 0, 0⟩
  | .chromaIntra, [] => some ⟨0, 0, 0, 0⟩
  | .luma, [.comma, .openBrace, .word a, .comma, .word b, .comma, .word c, .comma, .word d, .closeBrace] => do
    return ⟨← number a, ← number b, ← number c, ← number d⟩
  | .chroma, [.comma, .openBrace, .word a, .comma, .word b, .comma, .word c, .comma, .word d, .closeBrace] => do
    return ⟨← number a, ← number b, ← number c, ← number d⟩
  | _, _ => none

/-- The command of a line's tokens (R97). -/
def parseTokens (l : List Token) : Option Instr :=
  match l with
  | .word m :: .word a :: .comma :: .word b :: .comma :: .word c :: .comma :: .word d :: rest => do
    let kd ← mnemonicKind m
    let ops : EdgeOperands := ⟨← number a, ← number b, ← number c, ← number d⟩
    let t ← groupList kd.1 rest
    return Instr.ofKind kd.1 kd.2 ops t
  | _ => none

/-- The command an assembler line is (R97). -/
def parseLine (line : List Char) : Option Instr :=
  parseTokens (tokens line [])

/-- The words of an assembler line; nothing for a line that is no command or has an operand out of range (R98). -/
def assembleLine (line : List Char) : Option Descriptor :=
  (parseLine line).bind assemble

end Sys2Proof.Machine
end

