-- ==== Sys2Proof/Machine/CauseCode.lean ====
section
/-! DEFINITION. The cause codes of the outcome reasons and their payloads (60_exceptions R256), for whoever records them: the
hardware records nothing, and no step reads a code. -/

namespace Sys2Proof.Machine

/-- The cause code of a fault (R256). -/
def faultCode (r : Fault) : Nat :=
  match r with
  | .unwrittenDescriptor _ => 2
  | .outOfPlane _ => 3
  | .footprintOverlap _ _ _ _ => 4

/-- The payload of a fault, in the order of R256. -/
def faultPayload (r : Fault) : List Int :=
  match r with
  | .unwrittenDescriptor i => [(i : Int)]
  | .outOfPlane a => [a]
  | .footprintOverlap j1 k1 j2 k2 => [(j1 : Int), k1, (j2 : Int), k2]

/-- The cause code of a refusal (R256): the model's own refusals (entries 11, 12) have none. -/
def refusalCode (r : Refusal) : Option Nat :=
  if r = .reservedEncoding then some 1 else none

/-- The cause code an outcome mark records, none while it is ok (R256). -/
def causeCode (m : Mark) : Option Nat :=
  match m with
  | .ok => none
  | .fault r => some (faultCode r)
  | .refused r => refusalCode r

/-- The payload an outcome mark records (R256): a refusal has none. -/
def causePayload (m : Mark) : List Int :=
  match m with
  | .ok => []
  | .fault r => faultPayload r
  | .refused _ => []

end Sys2Proof.Machine
end

