-- ==== Sys2Proof/Machine/Orientation.lean ====
section
/-! DEFINITION. The optional transposition of the horizontal form (45_orientation_adapter R205 to R207): the tile is copied
into a scratch plane with its Lines as rows, filtered there as a vertical edge, and copied back. The perform step does not use
it (R206); it stands here so that the two values of ORIENT_IMPL can be stated equal. -/

namespace Sys2Proof.Machine

/-- How an implementation serves the horizontal form (00_scope R10, `ORIENT_IMPL`). -/
inductive OrientImpl where
  | strided
  /-- A scratch plane at `base` with row pitch `pitch`. -/
  | transposed (base pitch : Nat)
deriving DecidableEq, Repr

/-- The plane after a command performed by engine `e` by strided access (20 R70). -/
def stridedPlane (c : Command) (e : Engine) (m : Memory) : Memory :=
  memWrites m (commandStores c m e)

/-- The scratch address of position k of Line j: `s + j*w + (k + 4)` (R207). -/
def scratchAddr (base pitch j : Nat) (p : Pos) : Nat :=
  base + j * pitch + (p.offset + 4).toNat

/-- Step 1 of R207: the footprint copied into an empty scratch plane, Line j as row j. -/
def transposeIn (c : Command) (base pitch : Nat) (m : Memory) : Memory :=
  memWrites [] ((footprint c).map fun x => (scratchAddr base pitch x.line x.pos, memRead m x.addr.toNat))

/-- The command of step 2 of R207: the vertical form of the same kind on the scratch plane. -/
def verticalTwin (c : Command) (base pitch : Nat) : Command :=
  { c with
    dir := .vertical
    ops := { c.ops with edgePtr := (base : Int) + 4, stride := (pitch : Int) } }

/-- Step 3 of R207: the written positions copied back from the scratch plane. -/
def transposeOut (c : Command) (base pitch : Nat) (scratch m : Memory) : Memory :=
  memWrites m ((sites c (kWrite c.filter.kind)).map fun x =>
    (x.addr.toNat, memRead scratch (scratchAddr base pitch x.line x.pos)))

/-- The plane after a command under an implementation of the horizontal form (R205). -/
def planeAfter (impl : OrientImpl) (c : Command) (e : Engine) (m : Memory) : Memory :=
  match impl with
  | .strided => stridedPlane c e m
  | .transposed base pitch =>
    transposeOut c base pitch
      (stridedPlane (verticalTwin c base pitch) e (transposeIn c base pitch m)) m

end Sys2Proof.Machine
end

