-- ==== Sys2Proof/Certificates/Slice0/Obligations.lean ====
section
/-! DEFINITION. The statements for the provers. Each docstring names the rule of spec/ it formalises. -/

open Sys2Proof Sys2Proof.Machine Sys2Proof.Safety

/-! ## Encoding -/

/-- R91, R93, R98: decoding the words of a well-formed command gives the command back, with every operand. -/
def Obligations.DecodeOfEncodeIsIdentity : Prop :=
  ∀ i : Instr, i.wellFormed = true → decode (encode i) = .ok i

/-- R92: the operands of a decoded command are the fields of its descriptor, unscaled, and alpha and beta are in range. -/
def Obligations.DecodedOperandsAreTheFields : Prop :=
  ∀ (d : Descriptor) (i : Instr), decode d = .ok i →
    i.operands.alpha = ((d.ctrl.toNat / 2 ^ 8 % 2 ^ 8 : Nat) : Int) ∧
    i.operands.beta = ((d.ctrl.toNat / 2 ^ 16 % 2 ^ 8 : Nat) : Int) ∧
    (0 ≤ i.operands.alpha ∧ i.operands.alpha ≤ 255) ∧ (0 ≤ i.operands.beta ∧ i.operands.beta ≤ 255) ∧
    i.operands.edgePtr = (d.addr.toNat : Int) ∧
    i.operands.stride = (if d.stride.toNat < 2 ^ 31 then (d.stride.toNat : Int) else (d.stride.toNat : Int) - 2 ^ 32)

/-- R93: each tc0 entry of a decoded command is -1 where its SKIP bit is set, whatever TCV holds, and the unsigned field
TCV otherwise; so it is in {-1} ∪ [0,255]; and group g covers Lines 4g..4g+3 (luma) or 2g..2g+1 (chroma). -/
def Obligations.DecodedTc0IsTheSourceSet : Prop :=
  (∀ (d : Descriptor) (i : Instr) (t : Tc0), decode d = .ok i → i.tc0 = some t →
    ∀ g < 4, Ref.entry t g =
        (if d.ctrl.toNat / 2 ^ (24 + g) % 2 = 1 then -1 else ((d.tc0.toNat / 2 ^ (8 * g) % 2 ^ 8 : Nat) : Int)) ∧
      (Ref.entry t g = -1 ∨ (0 ≤ Ref.entry t g ∧ Ref.entry t g ≤ 255))) ∧
  (∀ (t : Tc0) (j : Nat), j < 16 → lineTc0 (.luma t) j = some (Ref.entry t (j / 4))) ∧
  (∀ (t : Tc0) (j : Nat), j < 8 → lineTc0 (.chroma t) j = some (Ref.entry t (j / 2)))

/-- R91 (with R92, R93): every decoded command is well formed. -/
def Obligations.DecodedCommandsAreWellFormed : Prop :=
  ∀ (d : Descriptor) (i : Instr), decode d = .ok i → i.wellFormed = true

/-- R91: KIND and DIR select the command, all eight values being assigned. -/
def Obligations.OpcodeMapSelectsTheCommand : Prop :=
  ∀ (k : Kind) (dir : Dir) (d : Descriptor),
    d.ctrl &&& 0xF00000FF#32 = (dirCode dir <<< 2) ||| kindCode k →
    ∃ i, decode d = .ok i ∧ i.kind = k ∧ i.dir = dir

/-- R95: a descriptor is rejected exactly when a reserved field is not zero, and at the GO such a descriptor is refused. -/
def Obligations.ReservedEncodingsAreRefused : Prop :=
  (∀ d : Descriptor, decode d = .error .reservedEncoding ↔
    ¬(d.ctrl.toNat / 2 ^ 3 % 2 ^ 5 = 0 ∧ d.ctrl.toNat / 2 ^ 28 = 0)) ∧
  ∀ (s : State) (e : Nat) (v : Word) (rest : List Input) (eng : Engine),
    s.outcome = .ok → s.inputs = .write e .status v :: rest → s.engines[e]? = some eng → eng.busy = false →
    ¬(eng.staged.ctrl.toNat / 2 ^ 3 % 2 ^ 5 = 0 ∧ eng.staged.ctrl.toNat / 2 ^ 28 = 0) →
    step s = .refused .reservedEncoding

/-- R94: two descriptors of an intra kind that differ in SKIP and CMD_TC0 alone carry the same command. -/
def Obligations.IntraCommandsIgnoreTc0 : Prop :=
  ∀ d d' : Descriptor, d.ctrl.toNat % 2 = 1 →
    d.ctrl &&& 0xF0FFFFFF#32 = d'.ctrl &&& 0xF0FFFFFF#32 → d.addr = d'.addr → d.stride = d'.stride →
    decode d = decode d'

/-- R98: the words the assembler writes, by arithmetic, and what it rejects. -/
def Obligations.AssembledWords : Prop :=
  (∀ i : Instr, i.wellFormed = false → assemble i = none) ∧
  ∀ i : Instr, i.wellFormed = true → ∃ d, assemble i = some d ∧
    (d.ctrl.toNat : Int) =
      (match i.tc0 with
        | some t => (Ref.flag (t.t0 = -1) + 2 * Ref.flag (t.t1 = -1) + 4 * Ref.flag (t.t2 = -1) +
            8 * Ref.flag (t.t3 = -1)) * 2 ^ 24
        | none => 0) +
      i.operands.beta * 2 ^ 16 + i.operands.alpha * 2 ^ 8 +
      (match i.dir with | .vertical => 0 | .horizontal => 4) +
      (match i.kind with | .luma => 0 | .lumaIntra => 1 | .chroma => 2 | .chromaIntra => 3) ∧
    (d.tc0.toNat : Int) =
      (match i.tc0 with
        | some t => max t.t3 0 * 2 ^ 24 + max t.t2 0 * 2 ^ 16 + max t.t1 0 * 2 ^ 8 + max t.t0 0
        | none => 0) ∧
    (d.addr.toNat : Int) = i.operands.edgePtr ∧
    (d.stride.toNat : Int) = i.operands.stride % 2 ^ 32

/-- R91, R93, R94: encoding a decoded command gives back every field that is read: the two address words and CMD_CTRL
outside SKIP always; for a normal kind SKIP too, and each TCV whose SKIP bit is clear. -/
def Obligations.ReencodingKeepsTheReadFields : Prop :=
  ∀ (d : Descriptor) (i : Instr), decode d = .ok i →
    (encode i).addr = d.addr ∧ (encode i).stride = d.stride ∧
    (encode i).ctrl &&& 0xF0FFFFFF#32 = d.ctrl &&& 0xF0FFFFFF#32 ∧
    (i.tc0.isSome = true → (encode i).ctrl = d.ctrl ∧
      ∀ g < 4, d.ctrl.toNat / 2 ^ (24 + g) % 2 = 0 →
        (encode i).tc0.toNat / 2 ^ (8 * g) % 2 ^ 8 = d.tc0.toNat / 2 ^ (8 * g) % 2 ^ 8)

/-- R100 (the text form is R97's; braces are characters 123 and 125): the spec's two worked assembler lines. -/
def Obligations.WorkedAssemblerLines : Prop :=
  assembleLine ("filter_luma.v 0x1000, 32, 20, 10, ".toList ++ [Char.ofNat 123] ++ "2, 2, -1, 0".toList ++
    [Char.ofNat 125]) = some ⟨0x040A1400#32, 0x00000202#32, 0x00001000#32, 0x00000020#32⟩ ∧
  assembleLine "filter_chroma_intra.h 0x2008, -64, 40, 6".toList =
    some ⟨0x00062807#32, 0x00000000#32, 0x00002008#32, 0xFFFFFFC0#32⟩

/-- Vectors EN-1, EN-2, EN-4, EN-6, EN-8, EN-9, EN-11 of 95_test_vectors: words written out from the spec. -/
def Obligations.SpecWordsDecode : Prop :=
  decode ⟨0x040A1400#32, 0x00000202#32, 0x00001000#32, 0x00000020#32⟩ =
    .ok (.filterLumaV ⟨0x1000, 32, 20, 10⟩ ⟨2, 2, -1, 0⟩) ∧
  decode ⟨0x000A1404#32, 0x02020202#32, 0x00001208#32, 0x00000040#32⟩ =
    .ok (.filterLumaH ⟨0x1208, 64, 20, 10⟩ ⟨2, 2, 2, 2⟩) ∧
  decode ⟨0x000A1405#32, 0x00000000#32, 0x000040B0#32, 0xFFFFFFF0#32⟩ =
    .ok (.filterLumaIntraH ⟨0x40B0, -16, 20, 10⟩) ∧
  decode ⟨0x020A1406#32, 0x02020002#32, 0x00001108#32, 0x00000040#32⟩ =
    .ok (.filterChromaH ⟨0x1108, 64, 20, 10⟩ ⟨2, -1, 2, 2⟩) ∧
  decode ⟨0x00062807#32, 0x00000000#32, 0x00002008#32, 0xFFFFFFC0#32⟩ =
    .ok (.filterChromaIntraH ⟨0x2008, -64, 40, 6⟩) ∧
  decode ⟨0x06FFFF00#32, 0x800000FF#32, 0xFFFFFFFF#32, 0x80000000#32⟩ =
    .ok (.filterLumaV ⟨4294967295, -2147483648, 255, 255⟩ ⟨255, -1, -1, 128⟩) ∧
  decode ⟨0x100A1400#32, 0#32, 0#32, 0#32⟩ = .error .reservedEncoding

/-! ## A step performs the command in flight -/

/-- R220: when an engine takes its perform step, the step is the meaning of the command its latch decodes to. Which step that
is, is the model's schedule: a `perform` move says so (LATENCY as an input, entry 9 of the log), a GO held on the busy engine
makes it perform at once (entry 10), or nothing is pending and it is the lowest-numbered busy engine (entry 9). -/
def Obligations.StepPerformsTheLatchedCommand : Prop :=
  ∀ (s : State) (e : Nat) (eng : Engine) (i : Instr), s.outcome = .ok → s.engines[e]? = some eng →
    eng.busy = true → decode eng.inflight = .ok i →
    (∀ rest, s.inputs = .perform e :: rest → step s = exec i { s with inputs := rest, active := e }) ∧
    (∀ v rest, s.inputs = .write e .status v :: rest → step s = exec i { s with active := e }) ∧
    (s.inputs = [] → (∀ o < e, s.busyAt o = false) → step s = exec i { s with active := e })

/-- R220 (the model's placing of a table word, entries 1 and 18 of the log): the very next step performs it. -/
def Obligations.PlacedWordIsPerformedNext : Prop :=
  ∀ (s : State) (nbits w : Nat) (i : Instr), decodeTableWord nbits w = some i →
    ∃ t, step (s.withFetchWord nbits w) = exec i t ∧ t.mem = s.mem ∧ t.plane = s.plane ∧ t.inputs = s.inputs ∧
      t.active = 0

/-! ## The host's registers -/

/-- R38, R39: a GO on an idle engine, with a legal descriptor, every register written and no footprint shared, copies the
four registers into the latch and sets BUSY, in one step, and changes nothing else. -/
def Obligations.GoLatchesTheDescriptor : Prop :=
  ∀ (s : State) (e : Nat) (v : Word) (rest : List Input) (eng : Engine) (i : Instr),
    s.outcome = .ok → s.inputs = .write e .status v :: rest → s.engines[e]? = some eng → eng.busy = false →
    decode eng.staged = .ok i → eng.wr = ⟨true, true, true, true⟩ →
    (∀ o other, o ≠ e → s.engines[o]? = some other →
      ∀ a ∈ inFlightFootprint other, ∀ x ∈ footprint (commandOf i), x.addr ≠ a) →
    step s = .next { s with
      inputs := rest
      engines := s.engines.set e { eng with busy := true, inflight := eng.staged } }

/-- R288, R38: a GO while BUSY is held, never lost: it is still pending after the step, with the registers it will latch
unchanged. That this very step takes the engine from BUSY to idle is the model's schedule (entry 10 of the log: DEDUCED); what
the command leaves in the plane is StepPerformsTheLatchedCommand with the result statements. -/
def Obligations.HeldGoIsNeverLost : Prop :=
  ∀ (s : State) (e : Nat) (v : Word) (rest : List Input) (eng : Engine) (i : Instr),
    s.outcome = .ok → s.inputs = .write e .status v :: rest → s.engines[e]? = some eng → eng.busy = true →
    decode eng.inflight = .ok i → Performable s.plane (commandOf i) →
    ∃ t, step s = .next t ∧ t.inputs = .write e .status v :: rest ∧
      ∃ eng', t.engines[e]? = some eng' ∧ eng'.busy = false ∧ eng'.staged = eng.staged ∧ eng'.wr = eng.wr

/-- R39, R288: a write to a descriptor register, BUSY or not, takes effect on the staging register and its written flag
alone; the command in flight is not disturbed. -/
def Obligations.StagingWritesKeepTheCommandInFlight : Prop :=
  ∀ (s : State) (e : Nat) (v : Word) (rest : List Input) (eng : Engine),
    s.outcome = .ok → s.engines[e]? = some eng →
    (s.inputs = .write e .cmdCtrl v :: rest → step s = .next { s with
      inputs := rest
      engines := s.engines.set e
        { eng with staged := { eng.staged with ctrl := v }, wr := { eng.wr with ctrl := true } } }) ∧
    (s.inputs = .write e .cmdTc0 v :: rest → step s = .next { s with
      inputs := rest
      engines := s.engines.set e
        { eng with staged := { eng.staged with tc0 := v }, wr := { eng.wr with tc0 := true } } }) ∧
    (s.inputs = .write e .cmdAddr v :: rest → step s = .next { s with
      inputs := rest
      engines := s.engines.set e
        { eng with staged := { eng.staged with addr := v }, wr := { eng.wr with addr := true } } }) ∧
    (s.inputs = .write e .cmdStride v :: rest → step s = .next { s with
      inputs := rest
      engines := s.engines.set e
        { eng with staged := { eng.staged with stride := v }, wr := { eng.wr with stride := true } } })

/-- R34 to R37: in every state, BUSY or not, a read of a descriptor register written since reset returns what its staging
register holds and changes nothing but what the host received; and a read right after a write returns the value written. -/
def Obligations.DescriptorRegistersReadBack : Prop :=
  (∀ (s : State) (e : Nat) (rest : List Input) (eng : Engine), s.outcome = .ok → s.engines[e]? = some eng →
    (eng.wr.ctrl = true → s.inputs = .read e .cmdCtrl :: rest →
      step s = .next { s with inputs := rest, readData := eng.staged.ctrl }) ∧
    (eng.wr.tc0 = true → s.inputs = .read e .cmdTc0 :: rest →
      step s = .next { s with inputs := rest, readData := eng.staged.tc0 }) ∧
    (eng.wr.addr = true → s.inputs = .read e .cmdAddr :: rest →
      step s = .next { s with inputs := rest, readData := eng.staged.addr }) ∧
    (eng.wr.stride = true → s.inputs = .read e .cmdStride :: rest →
      step s = .next { s with inputs := rest, readData := eng.staged.stride })) ∧
  ∀ (s : State) (e : Nat) (r : RegIndex) (v : Word) (rest : List Input), s.outcome = .ok → e < s.engines.length →
    r ≠ .status → s.inputs = .write e r v :: .read e r :: rest →
    ∃ t, Host.Core.run core 2 s = .next t ∧ t.readData = v ∧ t.inputs = rest ∧ t.mem = s.mem

/-- R38: a read of STATUS returns BUSY in bit 0 and zeros above it. -/
def Obligations.StatusReadReturnsBusy : Prop :=
  ∀ (s : State) (e : Nat) (rest : List Input) (eng : Engine), s.outcome = .ok → s.inputs = .read e .status :: rest →
    s.engines[e]? = some eng →
    step s = .next { s with inputs := rest, readData := if eng.busy then 1#32 else 0#32 }

/-- R46 (93 U7): a read of a descriptor register whose written flag is 0 returns a free value, a new one each time, and
changes nothing else. The value is `Config.freeWord` at the counter, of which nothing is known (entry 5 of the log). -/
def Obligations.UnwrittenRegisterReadIsADraw : Prop :=
  ∀ (s : State) (e : Nat) (r : RegIndex) (rest : List Input) (eng : Engine), s.outcome = .ok →
    s.inputs = .read e r :: rest → s.engines[e]? = some eng →
    ((r = .cmdCtrl ∧ eng.wr.ctrl = false) ∨ (r = .cmdTc0 ∧ eng.wr.tc0 = false) ∨
      (r = .cmdAddr ∧ eng.wr.addr = false) ∨ (r = .cmdStride ∧ eng.wr.stride = false)) →
    step s = .next { s with inputs := rest, readData := Config.freeWord s.draws, draws := s.draws + 1 }

/-- R254: a GO taken while a written flag is 0 faults, for the lowest such index, unless the descriptor is reserved, which
has priority (R257) and is ReservedEncodingsAreRefused. -/
def Obligations.UnwrittenDescriptorFaults : Prop :=
  ∀ (s : State) (e : Nat) (v : Word) (rest : List Input) (eng : Engine) (i : Instr),
    s.outcome = .ok → s.inputs = .write e .status v :: rest → s.engines[e]? = some eng → eng.busy = false →
    decode eng.staged = .ok i →
    (eng.wr.ctrl = false → step s = .fault (.unwrittenDescriptor 0)) ∧
    (eng.wr.ctrl = true → eng.wr.tc0 = false → step s = .fault (.unwrittenDescriptor 1)) ∧
    (eng.wr.ctrl = true → eng.wr.tc0 = true → eng.wr.addr = false → step s = .fault (.unwrittenDescriptor 2)) ∧
    (eng.wr.ctrl = true → eng.wr.tc0 = true → eng.wr.addr = true → eng.wr.stride = false →
      step s = .fault (.unwrittenDescriptor 3))

/-- R98, R282: the host's five moves that issue a well-formed command to an idle engine, with no other engine busy, leave
that command in flight there, and change no sample. -/
def Obligations.IssuedCommandIsInFlight : Prop :=
  ∀ (s : State) (e : Nat) (i : Instr) (rest : List Input), s.outcome = .ok → e < s.engines.length →
    (∀ eng ∈ s.engines, eng.busy = false) → i.wellFormed = true → s.inputs = issue e i ++ rest →
    ∃ t, Host.Core.run core 5 s = .next t ∧ t.inputs = rest ∧ t.mem = s.mem ∧ t.outcome = .ok ∧
      ∃ eng, t.engines[e]? = some eng ∧ eng.busy = true ∧ eng.inflight = encode i

/-! ## Preconditions -/

/-- R67: the first footprint address, Lines ascending and then positions ascending, that is not a plane address is the
command's fault. -/
def Obligations.FirstInvalidAddressFaults : Prop :=
  ∀ (i : Instr) (s : State) (j : Nat) (p : Pos), j < lineCount i.kind → p ∈ kReq i.kind →
    inPlane s.plane (siteAddr (commandOf i) j p) = false →
    (∀ j' < lineCount i.kind, ∀ p' ∈ kReq i.kind, j' < j ∨ (j' = j ∧ p'.offset < p.offset) →
      inPlane s.plane (siteAddr (commandOf i) j' p') = true) →
    exec i s = .fault (.outOfPlane (siteAddr (commandOf i) j p))

/-- R68: with every footprint address valid, the lexicographically least pair of positions at one address is the command's
fault. -/
def Obligations.FirstCoincidingPairFaults : Prop :=
  ∀ (i : Instr) (s : State) (j1 j2 : Nat) (pa pb : Pos),
    (∀ x ∈ footprint (commandOf i), inPlane s.plane x.addr = true) →
    j1 < lineCount i.kind → j2 < lineCount i.kind → pa ∈ kReq i.kind → pb ∈ kReq i.kind →
    (j1 < j2 ∨ (j1 = j2 ∧ pa.offset < pb.offset)) →
    siteAddr (commandOf i) j1 pa = siteAddr (commandOf i) j2 pb →
    (∀ j1' < lineCount i.kind, ∀ pa' ∈ kReq i.kind, ∀ j2' < lineCount i.kind, ∀ pb' ∈ kReq i.kind,
      (j1' < j2' ∨ (j1' = j2' ∧ pa'.offset < pb'.offset)) →
      siteAddr (commandOf i) j1' pa' = siteAddr (commandOf i) j2' pb' →
      (j1 < j1' ∨ (j1 = j1' ∧ (pa.offset < pa'.offset ∨ (pa = pa' ∧
        (j2 < j2' ∨ (j2 = j2' ∧ pb.offset ≤ pb'.offset))))))) →
    exec i s = .fault (.footprintOverlap j1 pa.offset j2 pb.offset)

/-- R226: at perform a command completes exactly when its preconditions hold, faults otherwise, and is never refused; no
sample, alpha, beta or tc0 value decides it. -/
def Obligations.CommandsFaultOnlyOnPreconditions : Prop :=
  ∀ (i : Instr) (s : State),
    ((∃ t, exec i s = .next t) ↔
      (∀ x ∈ footprint (commandOf i), inPlane s.plane x.addr = true) ∧
        (footprint (commandOf i)).Pairwise fun x y => x.addr ≠ y.addr) ∧
    (∀ r, exec i s = .fault r → (∃ a, r = .outOfPlane a) ∨ ∃ j1 k1 j2 k2, r = .footprintOverlap j1 k1 j2 k2) ∧
    ∀ r, exec i s ≠ .refused r

/-- R230 to R237, corner cases: with every footprint address valid, each command completes exactly when its stride is large
enough in magnitude, and otherwise faults with an overlap. -/
def Obligations.StrideDecidesOverlap : Prop :=
  ∀ (i : Instr) (s : State), (∀ x ∈ footprint (commandOf i), inPlane s.plane x.addr = true) →
    let least : Int := match i.kind, i.dir with
      | .luma, .vertical => 8
      | .luma, .horizontal => 16
      | .lumaIntra, .vertical => 8
      | .lumaIntra, .horizontal => 16
      | .chroma, .vertical => 6
      | .chroma, .horizontal => 8
      | .chromaIntra, .vertical => 6
      | .chromaIntra, .horizontal => 8
    (least ≤ |i.operands.stride| → ∃ t, exec i s = .next t) ∧
    (|i.operands.stride| < least → ∃ j1 k1 j2 k2, exec i s = .fault (.footprintOverlap j1 k1 j2 k2))

/-! ## What the commands compute -/

/-- R221, R230, R231: both forms of the luma normal filter complete wherever their preconditions hold, and every footprint
sample is then what `line_LUMA` gives, with the tc0 of the Line's 4-Line group. -/
def Obligations.FilterLumaResult : Prop :=
  ∀ (o : EdgeOperands) (t : Tc0) (s : State), t.wellFormed = true →
    (Ref.EdgeOk s.plane (Ref.rowAddr o) 16 (-4) 3 → ∃ u, exec (.filterLumaV o t) s = .next u ∧
      Ref.Filtered s u (Ref.rowAddr o) 16 (-4) 3
        (fun j x => Ref.lumaLine x o.alpha o.beta (Ref.entry t (j / 4)))) ∧
    (Ref.EdgeOk s.plane (Ref.colAddr o) 16 (-4) 3 → ∃ u, exec (.filterLumaH o t) s = .next u ∧
      Ref.Filtered s u (Ref.colAddr o) 16 (-4) 3
        (fun j x => Ref.lumaLine x o.alpha o.beta (Ref.entry t (j / 4))))

/-- R222, R232, R233: both forms of the luma strong filter complete wherever their preconditions hold, and every footprint
sample is then what `line_LUMA_INTRA` gives. Its one-sample update of a Line with sg = 0 and the q1 tap of that update are the
spec's resolution of 90_conflicts C2 and C3, from general knowledge (93 I1, I2; entry 16 of the log: PRESUMED). -/
def Obligations.FilterLumaIntraResult : Prop :=
  ∀ (o : EdgeOperands) (s : State),
    (Ref.EdgeOk s.plane (Ref.rowAddr o) 16 (-4) 3 → ∃ u, exec (.filterLumaIntraV o) s = .next u ∧
      Ref.Filtered s u (Ref.rowAddr o) 16 (-4) 3 (fun _ x => Ref.lumaIntraLine x o.alpha o.beta)) ∧
    (Ref.EdgeOk s.plane (Ref.colAddr o) 16 (-4) 3 → ∃ u, exec (.filterLumaIntraH o) s = .next u ∧
      Ref.Filtered s u (Ref.colAddr o) 16 (-4) 3 (fun _ x => Ref.lumaIntraLine x o.alpha o.beta))

/-- R223, R234, R235: both forms of the chroma normal filter complete wherever their preconditions hold, and every footprint
sample is then what `line_CHROMA` gives, with the tc0 of the Line's 2-Line group, unmodified. -/
def Obligations.FilterChromaResult : Prop :=
  ∀ (o : EdgeOperands) (t : Tc0) (s : State), t.wellFormed = true →
    (Ref.EdgeOk s.plane (Ref.rowAddr o) 8 (-3) 2 → ∃ u, exec (.filterChromaV o t) s = .next u ∧
      Ref.Filtered s u (Ref.rowAddr o) 8 (-3) 2
        (fun j x => Ref.chromaLine x o.alpha o.beta (Ref.entry t (j / 2)))) ∧
    (Ref.EdgeOk s.plane (Ref.colAddr o) 8 (-3) 2 → ∃ u, exec (.filterChromaH o t) s = .next u ∧
      Ref.Filtered s u (Ref.colAddr o) 8 (-3) 2
        (fun j x => Ref.chromaLine x o.alpha o.beta (Ref.entry t (j / 2))))

/-- R224, R236, R237: both forms of the chroma strong filter complete wherever their preconditions hold, and every footprint
sample is then what `line_CHROMA_INTRA` gives. -/
def Obligations.FilterChromaIntraResult : Prop :=
  ∀ (o : EdgeOperands) (s : State),
    (Ref.EdgeOk s.plane (Ref.rowAddr o) 8 (-3) 2 → ∃ u, exec (.filterChromaIntraV o) s = .next u ∧
      Ref.Filtered s u (Ref.rowAddr o) 8 (-3) 2 (fun _ x => Ref.chromaIntraLine x o.alpha o.beta)) ∧
    (Ref.EdgeOk s.plane (Ref.colAddr o) 8 (-3) 2 → ∃ u, exec (.filterChromaIntraH o) s = .next u ∧
      Ref.Filtered s u (Ref.colAddr o) 8 (-3) 2 (fun _ x => Ref.chromaIntraLine x o.alpha o.beta))

/-- R70, R225, R43: the frame of all eight commands. Every address but the written positions of the Lines reads as before.
PLANE, the pending moves, what the host last read, the outcome mark, every other engine, and the staging registers and written
flags of this engine are unchanged, and BUSY is 0. The counter of the free values advances by the four that the latch then
holds (entry 4 of the log); the Line registers, mask flags and parameters are as TransientRegistersAreLoaded says (entry 6). -/
def Obligations.CommandsChangeOnlyTheirWrittenPositions : Prop :=
  ∀ (i : Instr) (s t : State), exec i s = .next t →
    (∀ a : Nat, (∀ j < lineCount i.kind, ∀ p ∈ kWrite i.kind, siteAddr (commandOf i) j p ≠ (a : Int)) →
      memRead t.mem a = memRead s.mem a) ∧
    t.plane = s.plane ∧ t.inputs = s.inputs ∧ t.readData = s.readData ∧ t.outcome = s.outcome ∧
    t.active = s.active ∧ t.draws = s.draws + 4 ∧ t.engines.length = s.engines.length ∧
    (∀ e, e ≠ s.active → t.engines[e]? = s.engines[e]?) ∧
    ∀ eng, s.engines[s.active]? = some eng → ∃ eng', t.engines[s.active]? = some eng' ∧
      eng'.staged = eng.staged ∧ eng'.wr = eng.wr ∧ eng'.busy = false

/-- R123: with alpha = 0 or beta = 0, filterEdge is 0 for every Line, and every command completes wherever its
preconditions hold and changes no sample. -/
def Obligations.DisabledEdgeChangesNothing : Prop :=
  ∀ (i : Instr) (s : State), (i.operands.alpha = 0 ∨ i.operands.beta = 0) → Performable s.plane (commandOf i) →
    (∀ l : Line, filterEdge l i.operands.alpha i.operands.beta = false) ∧
    ∃ t, exec i s = .next t ∧ ∀ a, memRead t.mem a = memRead s.mem a

/-- R125, R185: the Lines of a group whose tc0 is the sentinel keep all their samples, whatever the other groups do. -/
def Obligations.SentinelGroupKeepsItsLines : Prop :=
  ∀ (i : Instr) (tc : Tc0) (s t : State) (j : Nat), i.tc0 = some tc → j < lineCount i.kind →
    Ref.entry tc (groupOf i.kind j) = -1 → exec i s = .next t →
    ∀ p ∈ kReq i.kind, memRead t.mem (siteAddr (commandOf i) j p).toNat =
      memRead s.mem (siteAddr (commandOf i) j p).toNat

/-- R186 (a): for the chroma normal filter a tc0 of 0 and the sentinel leave the same plane. -/
def Obligations.ChromaZeroTc0ActsAsTheSentinel : Prop :=
  ∀ (o : EdgeOperands) (t t' : Tc0) (s : State),
    (∀ g < 4, Ref.entry t g = Ref.entry t' g ∨ (Ref.entry t g = 0 ∧ Ref.entry t' g = -1)) →
    (Performable s.plane ⟨.chroma t, .vertical, o⟩ → ∃ u u', exec (.filterChromaV o t) s = .next u ∧
      exec (.filterChromaV o t') s = .next u' ∧ ∀ a, memRead u.mem a = memRead u'.mem a) ∧
    (Performable s.plane ⟨.chroma t, .horizontal, o⟩ → ∃ u u', exec (.filterChromaH o t) s = .next u ∧
      exec (.filterChromaH o t') s = .next u' ∧ ∀ a, memRead u.mem a = memRead u'.mem a)

/-- R120, R121, R160: the mask unit's flags and the small-gap test, for every Line and thresholds. -/
def Obligations.MaskFlagsAreTheThresholdTests : Prop :=
  ∀ (l : Line) (alpha beta : Int),
    (filterEdge l alpha beta = true ↔ |(l.p0.toNat : Int) - l.q0.toNat| < alpha ∧
      |(l.p1.toNat : Int) - l.p0.toNat| < beta ∧ |(l.q1.toNat : Int) - l.q0.toNat| < beta) ∧
    (softP l beta = true ↔ |(l.p2.toNat : Int) - l.p0.toNat| < beta) ∧
    (softQ l beta = true ↔ |(l.q2.toNat : Int) - l.q0.toNat| < beta) ∧
    (smallGap l alpha = true ↔ |(l.p0.toNat : Int) - l.q0.toNat| < alpha / 4 + 2)

/-- R142, R144, R145, R163 to R166, R191 (90_conflicts C11): for all samples the unclipped centre delta lies in
[-159, 159], and every value written without an explicit Clip1 already lies in [0, 255]. -/
def Obligations.ComputedValuesStayInRange : Prop :=
  ∀ (l : Line) (a b c d e : Byte) (t : Int), 0 ≤ t →
    (-159 ≤ rawDelta l ∧ rawDelta l ≤ 159) ∧
    (let v := secondSample t (zext8 a) (zext8 b) (centreMean l); 0 ≤ v ∧ v ≤ 255) ∧
    (let v := strongCentre (zext8 a) (zext8 b) (zext8 c) (zext8 d) (zext8 e); 0 ≤ v ∧ v ≤ 255) ∧
    (let v := strongSecond (zext8 a) (zext8 b) (zext8 c) (zext8 d); 0 ≤ v ∧ v ≤ 255) ∧
    (let v := strongThird (zext8 a) (zext8 b) (zext8 c) (zext8 d) (zext8 e); 0 ≤ v ∧ v ≤ 255) ∧
    (let v := weakCentre (zext8 a) (zext8 b) (zext8 c); 0 ≤ v ∧ v ≤ 255)

/-- R170 (e), R193 (b): both strong filters commute with exchanging the p and q sides (for luma with the resolution of
90_conflicts C2 and C3, entry 16 of the log: PRESUMED). -/
def Obligations.StrongFiltersAreMirrorSymmetric : Prop :=
  ∀ (d : Dir) (o : EdgeOperands) (j : Nat) (f : LineFlags) (l : Line),
    lineResult ⟨.lumaIntra, d, o⟩ j f (Ref.mirror l) = Ref.mirror (lineResult ⟨.lumaIntra, d, o⟩ j f l) ∧
    lineResult ⟨.chromaIntra, d, o⟩ j f (Ref.mirror l) = Ref.mirror (lineResult ⟨.chromaIntra, d, o⟩ j f l)

/-- R149 (e) (90_conflicts C7): both normal filters commute with exchanging the sides off the rounding tie, that is where
(q0 - p0)*4 + (p1 - q1) is not 4 modulo 8; and on the tie there are a legal tc0 list and a Line where they do not. -/
def Obligations.NormalFiltersMirrorOffTheTie : Prop :=
  (∀ (d : Dir) (o : EdgeOperands) (tc : Tc0) (j : Nat) (f : LineFlags) (l : Line), tc.wellFormed = true →
    (((l.q0.toNat : Int) - l.p0.toNat) * 4 + ((l.p1.toNat : Int) - l.q1.toNat)) % 8 ≠ 4 →
    lineResult ⟨.luma tc, d, o⟩ j f (Ref.mirror l) = Ref.mirror (lineResult ⟨.luma tc, d, o⟩ j f l) ∧
    lineResult ⟨.chroma tc, d, o⟩ j f (Ref.mirror l) = Ref.mirror (lineResult ⟨.chroma tc, d, o⟩ j f l)) ∧
  ∃ (o : EdgeOperands) (tc : Tc0) (l : Line), tc.wellFormed = true ∧
    (((l.q0.toNat : Int) - l.p0.toNat) * 4 + ((l.p1.toNat : Int) - l.q1.toNat)) % 8 = 4 ∧
    lineResult ⟨.luma tc, .vertical, o⟩ 0 zeroFlags (Ref.mirror l) ≠
      Ref.mirror (lineResult ⟨.luma tc, .vertical, o⟩ 0 zeroFlags l) ∧
    lineResult ⟨.chroma tc, .vertical, o⟩ 0 zeroFlags (Ref.mirror l) ≠
      Ref.mirror (lineResult ⟨.chroma tc, .vertical, o⟩ 0 zeroFlags l)

/-- R149 (b), R170 (a), R193 (a): a Line of eight equal samples is left unchanged by every filter. -/
def Obligations.SmoothLinesAreUnchanged : Prop :=
  ∀ (c : Command) (j : Nat) (f : LineFlags) (v : Byte),
    (∀ t, c.filter = .luma t ∨ c.filter = .chroma t → t.wellFormed = true) →
    lineResult c j f (Ref.smooth v) = Ref.smooth v

/-- R150, R171, R188, R194: the spec's worked Lines. -/
def Obligations.WorkedLines : Prop :=
  lineResult ⟨.luma (Ref.uniform 2), .vertical, ⟨0, 64, 20, 10⟩⟩ 0 zeroFlags
    ⟨90#8, 92#8, 94#8, 96#8, 100#8, 98#8, 96#8, 94#8⟩ = ⟨90#8, 92#8, 95#8, 98#8, 98#8, 97#8, 96#8, 94#8⟩ ∧
  lineResult ⟨.lumaIntra, .vertical, ⟨0, 64, 40, 10⟩⟩ 0 zeroFlags
    ⟨80#8, 84#8, 88#8, 92#8, 96#8, 100#8, 104#8, 108#8⟩ = ⟨80#8, 86#8, 90#8, 92#8, 96#8, 98#8, 102#8, 108#8⟩ ∧
  lineResult ⟨.chroma (Ref.uniform 2), .vertical, ⟨0, 64, 20, 10⟩⟩ 0 zeroFlags
    ⟨0#8, 0#8, 96#8, 100#8, 108#8, 104#8, 0#8, 0#8⟩ = ⟨0#8, 0#8, 96#8, 102#8, 106#8, 104#8, 0#8, 0#8⟩ ∧
  lineResult ⟨.chromaIntra, .vertical, ⟨0, 64, 7, 11⟩⟩ 0 zeroFlags
    ⟨0#8, 0#8, 100#8, 96#8, 90#8, 80#8, 0#8, 0#8⟩ = ⟨0#8, 0#8, 100#8, 94#8, 88#8, 80#8, 0#8, 0#8⟩

/-! ## Independence -/

/-- R43: a command's effect on the plane depends on the plane alone: whatever the Line registers, flags, parameters, staging
registers, host moves and other engines hold, the same command on the same plane leaves the same samples. -/
def Obligations.NoRetainedStateIsRead : Prop :=
  ∀ (i : Instr) (s s' t : State), s'.mem = s.mem → s'.plane = s.plane → exec i s = .next t →
    ∃ t', exec i s' = .next t' ∧ t'.mem = t.mem

/-- R284: the plane after a command does not depend on the order of its stores. -/
def Obligations.StoreOrderIsUnobservable : Prop :=
  ∀ (i : Instr) (s t : State) (ws : List Host.Cell), exec i s = .next t →
    ws.Perm (commandStores (commandOf i) s.mem s.activeEngine) →
    ∀ a, memRead (memWrites s.mem ws) a = memRead t.mem a

/-- R206, R207: serving the horizontal form by transposing into a scratch plane of pitch 8 or more, filtering there as a
vertical edge and transposing back leaves the same plane as the command does. -/
def Obligations.TranspositionIsUnobservable : Prop :=
  ∀ (i : Instr) (s t : State) (base pitch : Nat), i.dir = .horizontal → 8 ≤ pitch → exec i s = .next t →
    ∀ a, memRead (planeAfter (.transposed base pitch) (commandOf i) s.activeEngine s.mem) a = memRead t.mem a

/-- R202, R40, R41, R42 (what the transient registers still hold after the command is the model's choice, entry 6 of the
log): a completed command has loaded the Line registers of its read positions from the plane, set `filterEdge` and `en` of its
Lines by R120 and R125, `ap` and `aq` by R121 for luma and to 0 for chroma (R122), `sg` by R160 for luma intra, and loaded
alpha, beta and, for a normal kind, tc0. -/
def Obligations.TransientRegistersAreLoaded : Prop :=
  ∀ (i : Instr) (s t : State) (eng : Engine), exec i s = .next t → s.engines[s.active]? = some eng →
    ∃ eng', t.engines[s.active]? = some eng' ∧
      eng'.params.alpha = i.operands.alpha ∧ eng'.params.beta = i.operands.beta ∧
      (∀ tc, i.tc0 = some tc → eng'.params.tc0 = tc) ∧
      ∀ j < lineCount i.kind, ∃ l f, eng'.lines[j]? = some l ∧ eng'.flags[j]? = some f ∧
        (∀ p ∈ kRead i.kind, l.get p = memRead s.mem (siteAddr (commandOf i) j p).toNat) ∧
        (f.filterEdge = true ↔ |(l.p0.toNat : Int) - l.q0.toNat| < i.operands.alpha ∧
          |(l.p1.toNat : Int) - l.p0.toNat| < i.operands.beta ∧
          |(l.q1.toNat : Int) - l.q0.toNat| < i.operands.beta) ∧
        (f.en = true ↔ f.filterEdge = true ∧ ∀ tc, i.tc0 = some tc → Ref.entry tc (groupOf i.kind j) ≠ -1) ∧
        (i.kind = .luma ∨ i.kind = .lumaIntra →
          (f.ap = true ↔ |(l.p2.toNat : Int) - l.p0.toNat| < i.operands.beta) ∧
          (f.aq = true ↔ |(l.q2.toNat : Int) - l.q0.toNat| < i.operands.beta)) ∧
        (i.kind = .chroma ∨ i.kind = .chromaIntra → f.ap = false ∧ f.aq = false) ∧
        (i.kind = .lumaIntra →
          (f.sg = true ↔ |(l.p0.toNat : Int) - l.q0.toNat| < i.operands.alpha / 4 + 2))

/-! ## Host and engine on one plane -/

/-- R73: a host read that follows a command's completion sees the plane the command left. -/
def Obligations.HostSeesCommandWrites : Prop :=
  ∀ (s : State) (e : Nat) (eng : Engine) (i : Instr) (a : Nat) (rest : List Input), s.outcome = .ok →
    s.inputs = .perform e :: .planeRead a :: rest → s.engines[e]? = some eng → eng.busy = true →
    decode eng.inflight = .ok i → Performable s.plane (commandOf i) →
    (∀ o other, o ≠ e → s.engines[o]? = some other → other.busy = false) → inPlane s.plane (a : Int) = true →
    ∃ u t, exec i { s with inputs := .planeRead a :: rest, active := e } = .next u ∧
      Host.Core.run core 2 s = .next t ∧ t.readData = (memRead u.mem a).setWidth 32 ∧ t.mem = u.mem

/-- R72 (entry 11 of the log: the model's refusal): a host access to the footprint of a command in flight has no meaning. -/
def Obligations.HostAccessToFootprintIsRefused : Prop :=
  ∀ (s : State) (eng : Engine) (i : Instr) (x : Site) (a : Nat) (v : Byte) (rest : List Input), s.outcome = .ok →
    eng ∈ s.engines → eng.busy = true → decode eng.inflight = .ok i → x ∈ footprint (commandOf i) →
    x.addr = (a : Int) → inPlane s.plane (a : Int) = true →
    (s.inputs = .planeRead a :: rest → step s = .refused (.hostTouchesFootprint a)) ∧
    (s.inputs = .planeWrite a v :: rest → step s = .refused (.hostTouchesFootprint a))

/-- R268 (entry 11 of the log: the model's refusal): a GO that would put one address in two footprints in flight has no
meaning. -/
def Obligations.SharedFootprintGoIsRefused : Prop :=
  ∀ (s : State) (e o : Nat) (v : Word) (rest : List Input) (eng other : Engine) (i k : Instr) (x y : Site),
    s.outcome = .ok → s.inputs = .write e .status v :: rest → s.engines[e]? = some eng → eng.busy = false →
    decode eng.staged = .ok i → eng.wr = ⟨true, true, true, true⟩ → o ≠ e → s.engines[o]? = some other →
    other.busy = true → decode other.inflight = .ok k → x ∈ footprint (commandOf i) →
    y ∈ footprint (commandOf k) → x.addr = y.addr →
    ∃ o', step s = .refused (.footprintsShared e o')

/-- R281: reset while a command whose preconditions hold is in flight abandons it: each written address independently holds
its old value or the command's (the n-th by the n-th free bit, of which nothing is known; entry 13 of the log), and every
other address is unchanged. The engine is as after reset: idle, with every descriptor register unwritten (R46); that its
unspecified registers then hold 0 is the model's choice (entries 2 and 3: DESIGN CHOICE). Nothing else changes but the pending
moves and the counter of the free values, which advances by the bits drawn. -/
def Obligations.ResetAbandonsTheCommand : Prop :=
  ∀ (s : State) (e : Nat) (rest : List Input) (eng : Engine) (i : Instr), s.outcome = .ok →
    s.inputs = .reset e :: rest → s.engines[e]? = some eng → eng.busy = true → decode eng.inflight = .ok i →
    Performable s.plane (commandOf i) →
    ∃ (u : State) (m : Memory), exec i { s with active := e } = .next u ∧
      step s = .next { s with
        mem := m
        inputs := rest
        engines := s.engines.set e Engine.reset
        draws := s.draws + (commandStores (commandOf i) s.mem eng).length } ∧
      Engine.reset.busy = false ∧ Engine.reset.wr = ⟨false, false, false, false⟩ ∧
      (∀ a, (∀ j < lineCount i.kind, ∀ p ∈ kWrite i.kind, siteAddr (commandOf i) j p ≠ ((a : Nat) : Int)) →
        memRead m a = memRead s.mem a) ∧
      (∀ (n : Nat) (w : Host.Cell), (commandStores (commandOf i) s.mem eng)[n]? = some w →
        memRead m w.1 = if Config.freeBit (s.draws + n) then memRead u.mem w.1 else memRead s.mem w.1)

/-- R46: reset of an idle engine leaves the plane and every other engine as they are, and the engine idle with every
descriptor register unwritten. -/
def Obligations.ResetOfAnIdleEngineKeepsThePlane : Prop :=
  ∀ (s : State) (e : Nat) (rest : List Input) (eng : Engine), s.outcome = .ok → s.inputs = .reset e :: rest →
    s.engines[e]? = some eng → eng.busy = false →
    ∃ t, step s = .next t ∧ t.mem = s.mem ∧ t.plane = s.plane ∧ t.outcome = .ok ∧
      (∀ o, o ≠ e → t.engines[o]? = s.engines[o]?) ∧
      ∃ eng', t.engines[e]? = some eng' ∧ eng'.busy = false ∧ eng'.wr = ⟨false, false, false, false⟩

/-- R46, R280: after reset every engine is idle, no descriptor register is written, no move is pending and the outcome is
ok; the machine waits: its step changes nothing (R267). -/
def Obligations.ResetStateWaits : Prop :=
  (∀ eng ∈ State.reset.engines, eng.busy = false ∧ eng.wr = ⟨false, false, false, false⟩) ∧
    State.reset.outcome = .ok ∧ step State.reset = .next State.reset

/-! ## The whole machine -/

/-- R60, R95, R254, R268, R40: every step keeps the invariant: the plane in canonical form and within the address space,
every latch in flight a legal descriptor whose registers were written, sixteen Lines of transient registers, and no address in
two footprints in flight. -/
def Obligations.StepKeepsTheSystemInvariant : Prop :=
  ∀ s t : State, Inv s → step s = .next t → Inv t

/-- The invariant holds after reset. -/
def Obligations.ResetMeetsTheSystemInvariant : Prop :=
  Inv State.reset

/-- R10: the OPEN parameters PLANE and NUM_ENGINES are fixed for a run: no step changes them. -/
def Obligations.OpenParametersNeverChange : Prop :=
  ∀ s t : State, step s = .next t → t.plane = s.plane ∧ t.engines.length = s.engines.length

/-- R60, R67: no step changes a sample at an address that is not in PLANE. -/
def Obligations.NoStepWritesOutsideThePlane : Prop :=
  ∀ (s t : State) (a : Nat), step s = .next t → inPlane s.plane (a : Int) = false →
    memRead t.mem a = memRead s.mem a

/-- R45, R252: once a step faults or is refused, the marked state answers the same at every later step. That the one mark
stops every engine of the system and the host is the model's choice (entry 24 of the log: DESIGN CHOICE); what samples the
marked state holds is no part of this statement (entry 25). -/
def Obligations.OutcomeMarkIsSticky : Prop :=
  (∀ (s : State) (r : Fault), step s = .fault r →
    step (markedStep s (step s)) = .fault r ∧ (markedStep s (step s)).outcome = .fault r) ∧
  (∀ (s : State) (r : Refusal), step s = .refused r →
    step (markedStep s (step s)) = .refused r ∧ (markedStep s (step s)).outcome = .refused r)

/-- R267: with no move pending and no engine busy a step changes nothing. -/
def Obligations.IdleSystemWaits : Prop :=
  ∀ s : State, s.outcome = .ok → s.inputs = [] → (∀ eng ∈ s.engines, eng.busy = false) → step s = .next s

/-- R291: every command in flight whose preconditions hold eventually completes. That it does so within as many steps as
there are engines once no move is pending is the model's schedule, by which the lowest-numbered busy engine then performs
(entry 9 of the log: DESIGN CHOICE). -/
def Obligations.EveryCommandInFlightCompletes : Prop :=
  ∀ s : State, Inv s → s.inputs = [] →
    (∀ eng ∈ s.engines, ∀ c, inFlight eng = some c → Performable s.plane c) →
    ∃ t, Host.Core.run core s.engines.length s = .next t ∧ ∀ eng ∈ t.engines, eng.busy = false

/-! ## Cause codes, and the host's own accesses -/

/-- R256: the mark a step leaves carries the cause code of its reason and the payload: 1 for a reserved encoding; 2 with the
register index 0 to 3; 3 with an address that is not in PLANE; 4 with a pair of positions in order; and no code while the
outcome is ok. (Which address and which pair is first is FirstInvalidAddressFaults and FirstCoincidingPairFaults.) -/
def Obligations.MarksCarryTheCauseCodes : Prop :=
  ∀ s : State, s.outcome = .ok →
    let m := (markedStep s (step s)).outcome
    (∀ t, step s = .next t → causeCode m = none) ∧
    (step s = .refused .reservedEncoding → causeCode m = some 1 ∧ causePayload m = []) ∧
    (∀ k, step s = .fault (.unwrittenDescriptor k) →
      k ≤ 3 ∧ causeCode m = some 2 ∧ causePayload m = [(k : Int)]) ∧
    (∀ a, step s = .fault (.outOfPlane a) →
      inPlane s.plane a = false ∧ causeCode m = some 3 ∧ causePayload m = [a]) ∧
    ∀ j1 k1 j2 k2, step s = .fault (.footprintOverlap j1 k1 j2 k2) →
      (j1 < j2 ∨ (j1 = j2 ∧ k1 < k2)) ∧ causeCode m = some 4 ∧ causePayload m = [(j1 : Int), k1, (j2 : Int), k2]

/-- R30, R72, R73: a host access to a plane address outside every footprint in flight takes effect at once: a write stores
that sample and a read returns it, and nothing else changes but the pending moves. -/
def Obligations.HostAccessesReachThePlane : Prop :=
  ∀ (s : State) (a : Nat) (v : Byte) (rest : List Input), s.outcome = .ok → inPlane s.plane (a : Int) = true →
    (∀ eng ∈ s.engines, ∀ x ∈ inFlightFootprint eng, x ≠ (a : Int)) →
    (s.inputs = .planeWrite a v :: rest → ∃ m : Memory, step s = .next { s with inputs := rest, mem := m } ∧
      memRead m a = v ∧ ∀ b, b ≠ a → memRead m b = memRead s.mem b) ∧
    (s.inputs = .planeRead a :: rest →
      step s = .next { s with inputs := rest, readData := (memRead s.mem a).setWidth 32 })

/-- R73, first sentence: a host write completed before the GO is seen by the command: the plane afterwards is what the command
leaves of the plane with that sample stored. (The schedule of the perform step is a move, entry 9 of the log.) -/
def Obligations.CommandSeesHostWrites : Prop :=
  ∀ (s : State) (e a : Nat) (v : Byte) (w : Word) (rest : List Input) (eng : Engine) (i : Instr) (m : Memory),
    s.outcome = .ok → s.inputs = .planeWrite a v :: .write e .status w :: .perform e :: rest →
    s.engines[e]? = some eng → (∀ other ∈ s.engines, other.busy = false) → decode eng.staged = .ok i →
    eng.wr = ⟨true, true, true, true⟩ → inPlane s.plane (a : Int) = true → Performable s.plane (commandOf i) →
    memRead m a = v → (∀ b, b ≠ a → memRead m b = memRead s.mem b) →
    ∃ u t, exec i { s with mem := m, active := e } = .next u ∧ Host.Core.run core 3 s = .next t ∧
      ∀ b, memRead t.mem b = memRead u.mem b
end

