-- ==== Sys2Proof/Laws/Arith.lean ====
section
/-! SUPPORT. The laws of the integer arithmetic (00_scope R11 to R16): absolute value, clipping and the narrowing of a written
sample. -/

namespace Sys2Proof.Machine

theorem absInt_eq_abs (v : Int) : absInt v = |v| := by
  rw [absInt, Int.natCast_natAbs]

theorem clip_of_lt {v lo hi : Int} (hl : lo ≤ hi) (h : v < lo) : clip v lo hi = lo := by
  unfold clip
  omega

theorem clip_of_gt {v lo hi : Int} (h : hi < v) : clip v lo hi = hi := by
  unfold clip
  omega

theorem clip_of_mem {v lo hi : Int} (h1 : lo ≤ v) (h2 : v ≤ hi) : clip v lo hi = v := by
  unfold clip
  omega

theorem clip_bounds {v lo hi : Int} (hl : lo ≤ hi) : lo ≤ clip v lo hi ∧ clip v lo hi ≤ hi := by
  unfold clip
  omega

theorem zext8_bounds (v : Byte) : 0 ≤ zext8 v ∧ zext8 v ≤ 255 := by
  have := v.isLt
  unfold zext8
  omega

/-- R15: a written sample is `Clip1` of the computed value. -/
theorem zext8_toSample (v : Int) : zext8 (toSample v) = clip1 v := by
  have h := clip_bounds (v := v) (lo := 0) (hi := 255) (by omega)
  unfold zext8 toSample clip1
  rw [BitVec.toNat_ofInt]
  omega

theorem toSample_zext8 (v : Byte) : toSample (zext8 v) = v := by
  have h := zext8_bounds v
  unfold toSample clip1
  rw [clip_of_mem h.1 h.2]
  apply BitVec.eq_of_toNat_eq
  rw [BitVec.toNat_ofInt]
  unfold zext8 at *
  omega

end Sys2Proof.Machine
end

