-- ==== Sys2Proof/Laws/Decode.lean ====
section
/-! SUPPORT. The decoder and the encoder as arithmetic on the words read as numbers (30_encoding R91, R95, R98), so that
no later proof works bit by bit. -/

namespace Sys2Proof

/-! ## Fields -/

/-- R12: `w[hi:lo]` by division and remainder. -/
theorem field_eq (hi lo : Nat) (w : Word) : field hi lo w = w.toNat / 2 ^ lo % 2 ^ (hi - lo + 1) := by
  simp [field, BitVec.extractLsb, BitVec.extractLsb'_toNat, Nat.shiftRight_eq_div_pow]

theorem and_shiftLeft (n m k : Nat) : n &&& m <<< k = ((n >>> k) &&& m) <<< k := by
  apply Nat.eq_of_testBit_eq
  intro i
  by_cases hi : k ≤ i <;> simp [Nat.testBit_shiftLeft, Nat.testBit_shiftRight, hi]

/-- The bits a row of the opcode map looks at, as a number: bits 31..28 and 7..0 (R91). -/
theorem masked_toNat (w : Word) :
    (w &&& opcodeMask).toNat = w.toNat / 2 ^ 28 * 2 ^ 28 + w.toNat % 2 ^ 8 := by
  have hm : (4026532095 : Nat) = 15 <<< 28 ||| (2 ^ 8 - 1) := by decide
  have h28 : w.toNat / 2 ^ 28 < 16 := by have := w.isLt; omega
  have hhi : w.toNat &&& 15 <<< 28 = w.toNat / 2 ^ 28 * 2 ^ 28 := by
    rw [and_shiftLeft, show (15 : Nat) = 2 ^ 4 - 1 from rfl, Nat.and_two_pow_sub_one_eq_mod, Nat.shiftRight_eq_div_pow,
      Nat.shiftLeft_eq, Nat.mod_eq_of_lt h28]
  have hor : w.toNat / 2 ^ 28 * 2 ^ 28 ||| w.toNat % 2 ^ 8 = w.toNat / 2 ^ 28 * 2 ^ 28 + w.toNat % 2 ^ 8 := by
    rw [Nat.mul_comm]
    exact (Nat.two_pow_add_eq_or_of_lt (by omega) _).symm
  show w.toNat &&& 4026532095 = _
  rw [hm, Nat.and_or_distrib_left, hhi, Nat.and_two_pow_sub_one_eq_mod, hor]

/-! ## The decoder -/

/-- The kind of a `KIND` field (R91). -/
def kindOfCode (n : Nat) : Kind :=
  match n with
  | 0 => .luma
  | 1 => .lumaIntra
  | 2 => .chroma
  | _ => .chromaIntra

/-- The form of a `DIR` field (R91). -/
def dirOfCode (n : Nat) : Dir :=
  match n with
  | 0 => .vertical
  | _ => .horizontal

/-- Both reserved fields of `CMD_CTRL` are 0 (R95). -/
def LegalCtrl (w : Word) : Prop :=
  w.toNat / 2 ^ 3 % 2 ^ 5 = 0 ∧ w.toNat / 2 ^ 28 = 0

theorem rowMatches_iff (w : Word) (r : OpcodeRow) (hm : r.mask = opcodeMask) :
    rowMatches w r = true ↔ w.toNat / 2 ^ 28 * 2 ^ 28 + w.toNat % 2 ^ 8 = r.pattern.toNat := by
  rw [← masked_toNat, rowMatches, hm, beq_iff_eq, BitVec.toNat_inj]

theorem find_row_of_legal {w : Word} (h : LegalCtrl w) :
    opcodeTable.find? (rowMatches w) =
      some ⟨opcodeMask, (dirCode (dirOfCode (w.toNat / 4 % 2)) <<< 2) ||| kindCode (kindOfCode (w.toNat % 4)),
        kindOfCode (w.toNat % 4), dirOfCode (w.toNat / 4 % 2)⟩ := by
  obtain ⟨h1, h2⟩ := h
  have hlow : w.toNat % 2 ^ 8 = w.toNat % 8 := by omega
  have hrow : ∀ r : OpcodeRow, r.mask = opcodeMask → rowMatches w r = decide (w.toNat % 8 = r.pattern.toNat) := by
    intro r hr
    rw [Bool.eq_iff_iff, rowMatches_iff w r hr, h2, hlow, decide_eq_true_eq]
    omega
  have hcases : w.toNat % 8 < 8 := by omega
  have hk : w.toNat % 4 = w.toNat % 8 % 4 := by omega
  have hd : w.toNat / 4 % 2 = w.toNat % 8 / 4 := by omega
  rw [hk, hd]
  generalize w.toNat % 8 = n at hrow hcases
  simp only [opcodeTable, List.find?_cons, List.find?_nil, hrow]
  interval_cases n <;> rfl

theorem find_row_of_not_legal {w : Word} (h : ¬LegalCtrl w) : opcodeTable.find? (rowMatches w) = none := by
  rw [List.find?_eq_none]
  intro r hr hm
  have hrows : ∀ r ∈ opcodeTable, r.mask = opcodeMask ∧ r.pattern.toNat < 8 := by decide
  obtain ⟨hmask, hpat⟩ := hrows r hr
  rw [rowMatches_iff w r hmask] at hm
  apply h
  have := w.isLt
  constructor <;> omega

/-- R91, R95: the decoder answers the command of `KIND` and `DIR` where the reserved fields are 0. -/
theorem decode_of_legal {d : Descriptor} (h : LegalCtrl d.ctrl) :
    decode d = .ok (Instr.ofKind (kindOfCode (d.ctrl.toNat % 4)) (dirOfCode (d.ctrl.toNat / 4 % 2))
      (decodeOperands d) (decodeTc0 d)) := by
  rw [decode, find_row_of_legal h]

/-- R95: and rejects every other descriptor. -/
theorem decode_of_not_legal {d : Descriptor} (h : ¬LegalCtrl d.ctrl) : decode d = .error .reservedEncoding := by
  rw [decode, find_row_of_not_legal h]

/-- Everything the decoder can answer. -/
theorem decode_ok {d : Descriptor} {i : Instr} (h : decode d = .ok i) :
    LegalCtrl d.ctrl ∧ i = Instr.ofKind (kindOfCode (d.ctrl.toNat % 4)) (dirOfCode (d.ctrl.toNat / 4 % 2))
      (decodeOperands d) (decodeTc0 d) := by
  by_cases hl : LegalCtrl d.ctrl
  · rw [decode_of_legal hl] at h
    cases h
    exact ⟨hl, rfl⟩
  · rw [decode_of_not_legal hl] at h
    cases h

/-! ## The parts of a command -/

@[simp] theorem ofKind_kind (k : Kind) (d : Dir) (o : EdgeOperands) (t : Tc0) : (Instr.ofKind k d o t).kind = k := by
  cases k <;> cases d <;> rfl

@[simp] theorem ofKind_dir (k : Kind) (d : Dir) (o : EdgeOperands) (t : Tc0) : (Instr.ofKind k d o t).dir = d := by
  cases k <;> cases d <;> rfl

@[simp] theorem ofKind_operands (k : Kind) (d : Dir) (o : EdgeOperands) (t : Tc0) :
    (Instr.ofKind k d o t).operands = o := by
  cases k <;> cases d <;> rfl

theorem ofKind_tc0 (k : Kind) (d : Dir) (o : EdgeOperands) (t : Tc0) :
    (Instr.ofKind k d o t).tc0 = (match k with
      | .luma => some t
      | .lumaIntra => none
      | .chroma => some t
      | .chromaIntra => none) := by
  cases k <;> cases d <;> rfl

/-! ## The encoder -/

/-- Two fields side by side: the upper one a multiple of 2^n, the lower one below 2^n. -/
theorem or_eq_add {n x y : Nat} (hx : x % 2 ^ n = 0) (hy : y < 2 ^ n) : x ||| y = x + y := by
  obtain ⟨q, rfl⟩ := Nat.dvd_of_mod_eq_zero hx
  exact (Nat.two_pow_add_eq_or_of_lt hy q).symm

theorem toWord_toNat {v : Int} (h0 : 0 ≤ v) (h1 : v < 2 ^ 32) : (toWord v).toNat = v.toNat := by
  simp only [toWord, BitVec.toNat_ofInt]
  omega

theorem shiftLeft_toNat {w : Word} {n : Nat} (h : w.toNat * 2 ^ n < 4294967296) :
    (w <<< n).toNat = w.toNat * 2 ^ n := by
  rw [BitVec.toNat_shiftLeft, Nat.shiftLeft_eq, Nat.mod_eq_of_lt h]

/-- Five fields side by side, as `CMD_CTRL` has them. -/
theorem fields_or {s b a d k : Nat} (hb : b < 256) (ha : a < 256) (hd : d < 64) (hk : k < 4) :
    s * 2 ^ 24 ||| b * 2 ^ 16 ||| a * 2 ^ 8 ||| d * 2 ^ 2 ||| k =
      s * 2 ^ 24 + b * 2 ^ 16 + a * 2 ^ 8 + d * 2 ^ 2 + k := by
  have h1 : s * 2 ^ 24 ||| b * 2 ^ 16 = s * 2 ^ 24 + b * 2 ^ 16 := or_eq_add (n := 24) (by omega) (by omega)
  have h2 : (s * 2 ^ 24 + b * 2 ^ 16) ||| a * 2 ^ 8 = s * 2 ^ 24 + b * 2 ^ 16 + a * 2 ^ 8 :=
    or_eq_add (n := 16) (by omega) (by omega)
  have h3 : (s * 2 ^ 24 + b * 2 ^ 16 + a * 2 ^ 8) ||| d * 2 ^ 2 = s * 2 ^ 24 + b * 2 ^ 16 + a * 2 ^ 8 + d * 2 ^ 2 :=
    or_eq_add (n := 8) (by omega) (by omega)
  rw [h1, h2, h3]
  exact or_eq_add (n := 2) (by omega) (by omega)

/-- R98: `CMD_CTRL` as a sum of its fields. -/
theorem encodeCtrl_toNat (k : Kind) (d : Dir) {a b : Int} {skip : Word} (ha : 0 ≤ a ∧ a ≤ 255) (hb : 0 ≤ b ∧ b ≤ 255)
    (hs : skip.toNat < 16) :
    (encodeCtrl k d a b skip).toNat =
      skip.toNat * 2 ^ 24 + b.toNat * 2 ^ 16 + a.toNat * 2 ^ 8 + (dirCode d).toNat * 2 ^ 2 + (kindCode k).toNat := by
  have hk : (kindCode k).toNat < 4 := by cases k <;> decide
  have hd : (dirCode d).toNat < 2 := by cases d <;> decide
  have ea : (toWord a).toNat = a.toNat := toWord_toNat ha.1 (by omega)
  have eb : (toWord b).toNat = b.toNat := toWord_toNat hb.1 (by omega)
  simp only [encodeCtrl, BitVec.toNat_or]
  rw [shiftLeft_toNat (w := skip) (by omega), shiftLeft_toNat (w := toWord b) (by omega),
    shiftLeft_toNat (w := toWord a) (by omega), shiftLeft_toNat (w := dirCode d) (by omega), ea, eb]
  exact fields_or (by omega) (by omega) (by omega) hk

theorem skipField_toNat (t : Tc0) :
    (skipField t).toNat = (if t.t3 = -1 then 1 else 0) * 8 + (if t.t2 = -1 then 1 else 0) * 4 +
      (if t.t1 = -1 then 1 else 0) * 2 + (if t.t0 = -1 then 1 else 0) := by
  unfold skipField skipBit
  split <;> split <;> split <;> split <;> rfl

theorem tcvField_toNat {t : Int} (h : -1 ≤ t ∧ t ≤ 255) : (tcvField t).toNat = t.toNat := by
  unfold tcvField
  split
  · rename_i h1
    subst h1
    rfl
  · exact toWord_toNat (by omega) (by omega)

/-- R98: `CMD_TC0` as a sum of its fields. -/
theorem encodeTc0_toNat {t : Tc0} (h : t.wellFormed = true) :
    (encodeTc0 t).toNat = t.t3.toNat * 2 ^ 24 + t.t2.toNat * 2 ^ 16 + t.t1.toNat * 2 ^ 8 + t.t0.toNat := by
  simp only [Tc0.wellFormed, inRange, Bool.and_eq_true, decide_eq_true_eq] at h
  obtain ⟨⟨⟨h0, h1⟩, h2⟩, h3⟩ := h
  have e0 := tcvField_toNat h0
  have e1 := tcvField_toNat h1
  have e2 := tcvField_toNat h2
  have e3 := tcvField_toNat h3
  simp only [encodeTc0, BitVec.toNat_or]
  rw [shiftLeft_toNat (w := tcvField t.t3) (by omega), shiftLeft_toNat (w := tcvField t.t2) (by omega),
    shiftLeft_toNat (w := tcvField t.t1) (by omega), e0, e1, e2, e3]
  have f1 : t.t3.toNat * 2 ^ 24 ||| t.t2.toNat * 2 ^ 16 = t.t3.toNat * 2 ^ 24 + t.t2.toNat * 2 ^ 16 :=
    or_eq_add (n := 24) (by omega) (by omega)
  have f2 : (t.t3.toNat * 2 ^ 24 + t.t2.toNat * 2 ^ 16) ||| t.t1.toNat * 2 ^ 8 =
      t.t3.toNat * 2 ^ 24 + t.t2.toNat * 2 ^ 16 + t.t1.toNat * 2 ^ 8 :=
    or_eq_add (n := 16) (by omega) (by omega)
  rw [f1, f2]
  exact or_eq_add (n := 8) (by omega) (by omega)

end Sys2Proof
end

