-- ==== Sys2Proof/Laws/Memory.lean ====
section
/-! SUPPORT. The laws of the plane: a store is read back, leaves every other address alone and keeps the canonical form; a
canonical plane is determined by its samples; a list of stores to distinct addresses. -/

namespace Sys2Proof.Machine

/-! ## One store -/

theorem memRead_memInsert (m : Memory) (a b : Nat) (v : Byte) :
    memRead (memInsert m a v) b = if a = b then v else memRead m b := by
  induction m with
  | nil => simp [memInsert, memRead]
  | cons c rest ih =>
    by_cases h1 : a < c.1
    · simp [memInsert, memRead, h1]
    · by_cases h2 : a = c.1
      · subst h2
        by_cases h3 : c.1 = b <;> simp [memInsert, memRead, h3]
      · by_cases h3 : c.1 = b
        · subst h3
          simp [memInsert, memRead, h1, h2]
        · simp [memInsert, memRead, h1, h2, h3, ih]

theorem memRead_erase (m : Memory) (a b : Nat) :
    memRead (m.filter fun c => !decide (c.1 = a)) b = if a = b then unlistedSample else memRead m b := by
  induction m with
  | nil => simp [memRead]
  | cons c rest ih =>
    by_cases h1 : c.1 = a
    · by_cases h2 : a = b
      · subst h2
        simp [h1, ih]
      · simp [h1, h2, memRead, ih]
    · by_cases h2 : c.1 = b
      · subst h2
        simp [h1, memRead, Ne.symm h1]
      · simp [h1, memRead, h2, ih]

/-- R16: a store gives its address the value, and leaves every other address as it was. -/
theorem memRead_memWrite (m : Memory) (a b : Nat) (v : Byte) :
    memRead (memWrite m a v) b = if a = b then v else memRead m b := by
  unfold memWrite
  split
  · rename_i h
    subst h
    exact memRead_erase m a b
  · exact memRead_memInsert m a b v

theorem memRead_memWrite_same (m : Memory) (a : Nat) (v : Byte) : memRead (memWrite m a v) a = v := by
  simp [memRead_memWrite]

theorem memRead_memWrite_ne (m : Memory) {a b : Nat} (v : Byte) (h : a ≠ b) :
    memRead (memWrite m a v) b = memRead m b := by
  simp [memRead_memWrite, h]

/-! ## The canonical form -/

theorem memCanonical_mono {lo lo' : Nat} {m : Memory} (h : memCanonical lo' m = true) (hle : lo ≤ lo') :
    memCanonical lo m = true := by
  cases m with
  | nil => rfl
  | cons c rest =>
    simp only [memCanonical, Bool.and_eq_true, decide_eq_true_eq] at h ⊢
    exact ⟨⟨by omega, h.1.2⟩, h.2⟩

theorem memCanonical_memInsert {lo a : Nat} {m : Memory} {v : Byte} (h : memCanonical lo m = true)
    (ha : lo ≤ a) (hv : v ≠ unlistedSample) : memCanonical lo (memInsert m a v) = true := by
  induction m generalizing lo with
  | nil => simp [memInsert, memCanonical, ha, hv]
  | cons c rest ih =>
    simp only [memCanonical, Bool.and_eq_true, decide_eq_true_eq] at h
    by_cases h1 : a < c.1
    · simp only [memInsert, if_pos h1, memCanonical, Bool.and_eq_true, decide_eq_true_eq]
      exact ⟨⟨ha, by simp [hv]⟩, ⟨⟨by omega, h.1.2⟩, h.2⟩⟩
    · by_cases h2 : a = c.1
      · simp only [memInsert, if_neg h1, if_pos h2, memCanonical, Bool.and_eq_true, decide_eq_true_eq]
        exact ⟨⟨ha, by simp [hv]⟩, by rw [h2]; exact h.2⟩
      · simp only [memInsert, if_neg h1, if_neg h2, memCanonical, Bool.and_eq_true, decide_eq_true_eq]
        exact ⟨h.1, ih h.2 (by omega)⟩

theorem memCanonical_filter {lo : Nat} {m : Memory} (p : Host.Cell → Bool) (h : memCanonical lo m = true) :
    memCanonical lo (m.filter p) = true := by
  induction m generalizing lo with
  | nil => rfl
  | cons c rest ih =>
    simp only [memCanonical, Bool.and_eq_true, decide_eq_true_eq] at h
    rw [List.filter_cons]
    split
    · simp only [memCanonical, Bool.and_eq_true, decide_eq_true_eq]
      exact ⟨h.1, ih h.2⟩
    · exact ih (memCanonical_mono h.2 (by omega))

/-- A store keeps the canonical form. -/
theorem memWrite_wf {m : Memory} (a : Nat) (v : Byte) (h : Memory.wf m = true) :
    Memory.wf (memWrite m a v) = true := by
  unfold memWrite
  split
  · exact memCanonical_filter _ h
  · exact memCanonical_memInsert h (by omega) ‹_›

/-- The addresses listed after a store are the ones before it and the one stored to. -/
theorem mem_memWrite {m : Memory} {a : Nat} {v : Byte} {c : Host.Cell} (h : c ∈ memWrite m a v) :
    c ∈ m ∨ c = (a, v) := by
  unfold memWrite at h
  split at h
  · exact .inl (List.mem_filter.1 h).1
  · clear * - h
    induction m with
    | nil => exact .inr (by simpa [memInsert] using h)
    | cons d rest ih =>
      simp only [memInsert] at h
      split at h
      · simp only [List.mem_cons] at h ⊢
        tauto
      · split at h
        · simp only [List.mem_cons] at h ⊢
          tauto
        · simp only [List.mem_cons] at h ⊢
          rcases h with h | h
          · exact .inl (.inl h)
          · exact (ih h).imp .inr id

theorem memRead_of_lt {lo a : Nat} {m : Memory} (h : memCanonical lo m = true) (ha : a < lo) :
    memRead m a = unlistedSample := by
  induction m generalizing lo with
  | nil => rfl
  | cons c rest ih =>
    simp only [memCanonical, Bool.and_eq_true, decide_eq_true_eq] at h
    have h1 : ¬c.1 = a := by omega
    simp only [memRead, if_neg h1]
    exact ih h.2 (by omega)

/-- Two canonical planes with the same samples are the same data. -/
theorem memCanonical_ext {lo : Nat} {m n : Memory} (hm : memCanonical lo m = true) (hn : memCanonical lo n = true)
    (h : ∀ a, memRead m a = memRead n a) : m = n := by
  induction m generalizing lo n with
  | nil =>
    cases n with
    | nil => rfl
    | cons d rest =>
      have h1 := h d.1
      simp only [memCanonical, Bool.and_eq_true, decide_eq_true_eq] at hn
      simp only [memRead, if_true] at h1
      have := hn.1.2
      simp [← h1] at this
  | cons c rest ih =>
    simp only [memCanonical, Bool.and_eq_true, decide_eq_true_eq] at hm
    cases n with
    | nil =>
      have h1 := h c.1
      simp only [memRead, if_true] at h1
      have := hm.1.2
      simp [h1] at this
    | cons d rest' =>
      simp only [memCanonical, Bool.and_eq_true, decide_eq_true_eq] at hn
      have hcd : c.1 = d.1 := by
        rcases Nat.lt_trichotomy c.1 d.1 with hlt | heq | hgt
        · exfalso
          have h1 := h c.1
          have h2 : ¬d.1 = c.1 := by omega
          simp only [memRead, if_true, if_neg h2] at h1
          rw [memRead_of_lt hn.2 (by omega)] at h1
          have := hm.1.2
          simp [h1] at this
        · exact heq
        · exfalso
          have h1 := h d.1
          have h2 : ¬c.1 = d.1 := by omega
          simp only [memRead, if_true, if_neg h2] at h1
          rw [memRead_of_lt hm.2 (by omega)] at h1
          have := hn.1.2
          simp [← h1] at this
      have hv : c.2 = d.2 := by
        have h1 := h c.1
        simpa [memRead, hcd] using h1
      have hc : c = d := Prod.ext hcd hv
      subst hc
      congr 1
      refine ih hm.2 hn.2 fun a => ?_
      by_cases ha : c.1 = a
      · subst ha
        rw [memRead_of_lt hm.2 (by omega), memRead_of_lt hn.2 (by omega)]
      · simpa [memRead, ha] using h a

theorem Memory.ext_of_wf {m n : Memory} (hm : Memory.wf m = true) (hn : Memory.wf n = true)
    (h : ∀ a, memRead m a = memRead n a) : m = n :=
  memCanonical_ext hm hn h

/-! ## A list of stores -/

@[simp] theorem memWrites_nil (m : Memory) : memWrites m [] = m := rfl

@[simp] theorem memWrites_cons (m : Memory) (w : Host.Cell) (ws : List Host.Cell) :
    memWrites m (w :: ws) = memWrites (memWrite m w.1 w.2) ws := rfl

/-- Stores keep the canonical form. -/
theorem memWrites_wf {m : Memory} (ws : List Host.Cell) (h : Memory.wf m = true) :
    Memory.wf (memWrites m ws) = true := by
  induction ws generalizing m with
  | nil => exact h
  | cons w rest ih => exact ih (memWrite_wf _ _ h)

/-- Every cell listed after some stores was listed before or is one of them. -/
theorem mem_memWrites {m : Memory} {ws : List Host.Cell} {c : Host.Cell} (h : c ∈ memWrites m ws) :
    c ∈ m ∨ c ∈ ws := by
  induction ws generalizing m with
  | nil => exact .inl h
  | cons w rest ih =>
    rcases ih h with h1 | h1
    · rcases mem_memWrite h1 with h2 | h2
      · exact .inl h2
      · exact .inr (by simp [h2])
    · exact .inr (List.mem_cons_of_mem _ h1)

/-- An address no store goes to reads as before. -/
theorem memRead_memWrites_of_notMem {m : Memory} {ws : List Host.Cell} {a : Nat} (h : ∀ w ∈ ws, w.1 ≠ a) :
    memRead (memWrites m ws) a = memRead m a := by
  induction ws generalizing m with
  | nil => rfl
  | cons w rest ih =>
    rw [memWrites_cons, ih fun x hx => h x (List.mem_cons_of_mem _ hx)]
    exact memRead_memWrite_ne _ _ (h w List.mem_cons_self)

/-- With distinct addresses, a stored address reads as the value stored. -/
theorem memRead_memWrites_of_mem {m : Memory} {ws : List Host.Cell} (hd : ws.Pairwise fun v w => v.1 ≠ w.1)
    {w : Host.Cell} (h : w ∈ ws) : memRead (memWrites m ws) w.1 = w.2 := by
  induction ws generalizing m with
  | nil => simp at h
  | cons x rest ih =>
    rw [List.pairwise_cons] at hd
    rw [memWrites_cons]
    rcases List.mem_cons.1 h with h1 | h1
    · subst h1
      rw [memRead_memWrites_of_notMem fun y hy => (hd.1 y hy).symm]
      exact memRead_memWrite_same _ _ _
    · exact ih hd.2 h1

/-- The same stores on planes of the same samples leave the same samples. -/
theorem memRead_memWrites_congr {m m' : Memory} (ws : List Host.Cell) (h : ∀ a, memRead m a = memRead m' a) (b : Nat) :
    memRead (memWrites m ws) b = memRead (memWrites m' ws) b := by
  induction ws generalizing m m' with
  | nil => exact h b
  | cons w rest ih => exact ih fun a => by rw [memRead_memWrite, memRead_memWrite, h]

end Sys2Proof.Machine
end

