-- ==== Sys2Proof/Laws/Operands.lean ====
section
/-! SUPPORT. The laws of the address generation and of a command's preconditions (20_memory R64 to R68): when the checks
pass, what they answer when they do not, and that the sites a command stores to are distinct plane addresses. -/

namespace Sys2Proof.Machine

open Sys2Proof.Safety

/-! ## Sites -/

theorem mem_sites {c : Command} {ks : List Pos} {x : Site} :
    x ∈ sites c ks ↔ ∃ j < lineCount c.filter.kind, ∃ p ∈ ks, x = ⟨j, p, siteAddr c j p⟩ := by
  simp only [sites, List.mem_flatMap, List.mem_range, List.mem_map]
  constructor
  · rintro ⟨j, hj, p, hp, rfl⟩
    exact ⟨j, hj, p, hp, rfl⟩
  · rintro ⟨j, hj, p, hp, rfl⟩
    exact ⟨j, hj, p, hp, rfl⟩

theorem sites_sublist (c : Command) {ks ks' : List Pos} (h : ks.Sublist ks') :
    (sites c ks).Sublist (sites c ks') := by
  unfold sites
  induction List.range (lineCount c.filter.kind) with
  | nil => simp
  | cons j rest ih =>
    rw [List.flatMap_cons, List.flatMap_cons]
    exact (h.map _).append ih

theorem kWrite_sublist (k : Kind) : (kWrite k).Sublist (kReq k) := by
  cases k <;> decide

theorem kRead_sublist (k : Kind) : (kRead k).Sublist (kReq k) := by
  cases k <;> decide

theorem kWrite_subset_kRead {k : Kind} {p : Pos} (h : p ∈ kWrite k) : p ∈ kRead k := by
  cases k <;> cases p <;> revert h <;> decide

/-! ## The parts of a command -/

@[simp] theorem commandOf_kind (i : Instr) : (commandOf i).filter.kind = i.kind := by cases i <;> rfl

@[simp] theorem commandOf_dir (i : Instr) : (commandOf i).dir = i.dir := by cases i <;> rfl

@[simp] theorem commandOf_ops (i : Instr) : (commandOf i).ops = i.operands := by cases i <;> rfl

/-! ## The order of the sites -/

theorem offset_inj {p q : Pos} (h : p.offset = q.offset) : p = q := by
  cases p <;> cases q <;> first | rfl | (exfalso; revert h; decide)

theorem kReq_ascending (k : Kind) : (kReq k).Pairwise fun p q => p.offset < q.offset := by
  cases k <;> decide

/-- R67, R68: the footprint lists its sites Lines ascending, then positions ascending. -/
theorem footprint_ascending (c : Command) :
    (footprint c).Pairwise fun x y => x.line < y.line ∨ (x.line = y.line ∧ x.pos.offset < y.pos.offset) := by
  unfold footprint sites
  rw [List.pairwise_flatMap]
  constructor
  · intro j _
    rw [List.pairwise_map]
    exact (kReq_ascending _).imp fun h => .inr ⟨rfl, h⟩
  · refine List.pairwise_lt_range.imp ?_
    intro j j' h x hx y hy
    obtain ⟨p, _, rfl⟩ := List.mem_map.1 hx
    obtain ⟨q, _, rfl⟩ := List.mem_map.1 hy
    exact .inl h

/-! ## The checks -/

theorem firstInvalid_eq_none {plane : List Region} {l : List Site} :
    firstInvalid plane l = none ↔ ∀ x ∈ l, inPlane plane x.addr = true := by
  simp [firstInvalid, List.find?_eq_none]

/-- R67: the site answered is not valid and every site before it is. -/
theorem firstInvalid_eq_some {plane : List Region} {l : List Site} {x : Site} :
    firstInvalid plane l = some x ↔ inPlane plane x.addr = false ∧
      ∃ pre post, l = pre ++ x :: post ∧ ∀ y ∈ pre, inPlane plane y.addr = true := by
  simp [firstInvalid, List.find?_eq_some_iff_append]

theorem firstOverlap_eq_none {l : List Site} :
    firstOverlap l = none ↔ l.Pairwise fun x y => x.addr ≠ y.addr := by
  induction l with
  | nil => simp [firstOverlap]
  | cons x rest ih =>
    rw [List.pairwise_cons, ← ih, firstOverlap]
    constructor
    · intro h
      split at h
      · cases h
      · rename_i hn
        refine ⟨fun y hy he => ?_, h⟩
        have := List.find?_eq_none.1 hn y hy
        simp [he] at this
    · rintro ⟨h1, h2⟩
      have hn : (rest.find? fun y => decide (y.addr = x.addr)) = none := by
        rw [List.find?_eq_none]
        intro y hy
        simpa using (h1 y hy).symm
      rw [hn]
      exact h2

/-- R68: a pair is answered only for two sites of the list, in order, at one address. -/
theorem firstOverlap_eq_some {l : List Site} {x y : Site} (h : firstOverlap l = some (x, y)) :
    x ∈ l ∧ y ∈ l ∧ x.addr = y.addr := by
  induction l with
  | nil => simp [firstOverlap] at h
  | cons z rest ih =>
    rw [firstOverlap] at h
    split at h
    · rename_i w hw
      cases h
      have h1 := List.find?_some hw
      exact ⟨List.mem_cons_self, List.mem_cons_of_mem _ (List.mem_of_find?_eq_some hw), by simpa using (of_decide_eq_true h1).symm⟩
    · obtain ⟨h1, h2, h3⟩ := ih h
      exact ⟨List.mem_cons_of_mem _ h1, List.mem_cons_of_mem _ h2, h3⟩

/-- R68: the pair is answered in the order of the list. -/
theorem firstOverlap_sublist {l : List Site} {x y : Site} (h : firstOverlap l = some (x, y)) : [x, y].Sublist l := by
  induction l with
  | nil => simp [firstOverlap] at h
  | cons z rest ih =>
    rw [firstOverlap] at h
    split at h
    · rename_i w hw
      cases h
      exact (List.singleton_sublist.2 (List.mem_of_find?_eq_some hw)).cons_cons _
    · exact (ih h).cons z

/-- The checks of a command pass exactly when its preconditions hold. -/
theorem performFault_eq_none {plane : List Region} {c : Command} :
    performFault plane c = none ↔ Performable plane c := by
  unfold performFault Performable
  rw [← firstInvalid_eq_none, ← firstOverlap_eq_none]
  cases h1 : firstInvalid plane (footprint c) with
  | some x => simp
  | none =>
    cases h2 : firstOverlap (footprint c) with
    | some y => simp
    | none => simp

/-- R226: the only faults of a command at perform. -/
theorem performFault_cases {plane : List Region} {c : Command} {r : Fault} (h : performFault plane c = some r) :
    (∃ a, r = .outOfPlane a) ∨ ∃ j1 k1 j2 k2, r = .footprintOverlap j1 k1 j2 k2 := by
  unfold performFault at h
  split at h
  · cases h
    exact .inl ⟨_, rfl⟩
  · split at h
    · cases h
      exact .inr ⟨_, _, _, _, rfl⟩
    · cases h

/-- R67, R68: what the two faults of a command at perform carry. -/
theorem performFault_payload {plane : List Region} {c : Command} :
    (∀ a, performFault plane c = some (.outOfPlane a) → inPlane plane a = false) ∧
      ∀ j1 k1 j2 k2, performFault plane c = some (.footprintOverlap j1 k1 j2 k2) →
        j1 < j2 ∨ (j1 = j2 ∧ k1 < k2) := by
  constructor
  · intro a h
    unfold performFault at h
    split at h
    · rename_i x hx
      cases h
      exact (firstInvalid_eq_some.1 hx).1
    · split at h <;> cases h
  · intro j1 k1 j2 k2 h
    unfold performFault at h
    split at h
    · cases h
    · split at h
      · rename_i x y hxy
        cases h
        have := (footprint_ascending c).sublist (firstOverlap_sublist hxy)
        simpa using this
      · cases h

/-! ## What the preconditions give -/

theorem inPlane_bounds {plane : List Region} {a : Int} (h : inPlane plane a = true) :
    0 ≤ a ∧ a < (Config.addressCount : Int) := by
  simp only [inPlane, Bool.and_eq_true, decide_eq_true_eq] at h
  obtain ⟨⟨h1, h2⟩, _⟩ := h
  exact ⟨h1, by omega⟩

/-- R60, R67: an address is in PLANE when it lies in [0, 2^32) and in one of the regions. -/
theorem inPlane_iff {plane : List Region} {a : Int} : inPlane plane a = true ↔
    (0 ≤ a ∧ a < (Config.addressCount : Int)) ∧
      ∃ r ∈ plane, (r.base : Int) ≤ a ∧ a < (r.base : Int) + (r.size : Int) := by
  simp only [inPlane, Bool.and_eq_true, decide_eq_true_eq, List.any_eq_true]
  constructor
  · rintro ⟨⟨h1, h2⟩, r, hr, h3, h4⟩
    exact ⟨⟨h1, by omega⟩, r, hr, by omega, by omega⟩
  · rintro ⟨⟨h1, h2⟩, r, hr, h3, h4⟩
    exact ⟨⟨h1, by omega⟩, r, hr, by omega, by omega⟩

theorem site_inPlane {plane : List Region} {c : Command} (h : Performable plane c) {j : Nat} {p : Pos}
    (hj : j < lineCount c.filter.kind) (hp : p ∈ kReq c.filter.kind) : inPlane plane (siteAddr c j p) = true :=
  h.1 _ (mem_sites.2 ⟨j, hj, p, hp, rfl⟩)

theorem site_inj {plane : List Region} {c : Command} (h : Performable plane c) {j j' : Nat} {p p' : Pos}
    (hj : j < lineCount c.filter.kind) (hp : p ∈ kReq c.filter.kind)
    (hj' : j' < lineCount c.filter.kind) (hp' : p' ∈ kReq c.filter.kind)
    (he : siteAddr c j p = siteAddr c j' p') : j = j' ∧ p = p' := by
  by_contra hne
  have hx : (⟨j, p, siteAddr c j p⟩ : Site) ∈ footprint c := mem_sites.2 ⟨j, hj, p, hp, rfl⟩
  have hy : (⟨j', p', siteAddr c j' p'⟩ : Site) ∈ footprint c := mem_sites.2 ⟨j', hj', p', hp', rfl⟩
  have hxy : (⟨j, p, siteAddr c j p⟩ : Site) ≠ ⟨j', p', siteAddr c j' p'⟩ := by
    intro hc
    injection hc with h1 h2
    exact hne ⟨h1, h2⟩
  have hsymm : Std.Symm fun x y : Site => x.addr ≠ y.addr := ⟨fun _ _ hab => hab.symm⟩
  exact h.2.forall hx hy hxy he

/-- The sites a command stores to are at pairwise distinct plane addresses. -/
theorem writeSites_distinct {plane : List Region} {c : Command} (h : Performable plane c) :
    (sites c (kWrite c.filter.kind)).Pairwise fun x y => x.addr.toNat ≠ y.addr.toNat := by
  have hs := sites_sublist c (kWrite_sublist c.filter.kind)
  refine (h.2.sublist hs).imp_of_mem fun {x y} hx hy hne => ?_
  have h1 := (inPlane_bounds (h.1 x (hs.subset hx))).1
  have h2 := (inPlane_bounds (h.1 y (hs.subset hy))).1
  omega

end Sys2Proof.Machine
end

