-- ==== Sys2Proof/Laws/PerInstr.lean ====
section
/-! SUPPORT. Statements made for every command as syntax. -/

namespace Sys2Proof.Laws

/-- The command is put together again from its parts, and the perform step sees exactly those parts. -/
def Parts.Statement (i : Instr) : Prop :=
  (∀ t, Instr.ofKind i.kind i.dir i.operands (i.tc0.getD t) = i) ∧
    (Machine.commandOf i).filter.kind = i.kind ∧ (Machine.commandOf i).dir = i.dir ∧
    (Machine.commandOf i).ops = i.operands ∧
    ∀ j, Machine.lineTc0 (Machine.commandOf i).filter j =
      i.tc0.map fun t => Machine.tc0Entry t (Machine.groupOf i.kind j)

theorem Parts.filterLumaV (o : EdgeOperands) (t : Tc0) : Parts.Statement (.filterLumaV o t) :=
  ⟨fun _ => rfl, rfl, rfl, rfl, fun _ => rfl⟩

theorem Parts.filterLumaH (o : EdgeOperands) (t : Tc0) : Parts.Statement (.filterLumaH o t) :=
  ⟨fun _ => rfl, rfl, rfl, rfl, fun _ => rfl⟩

theorem Parts.filterLumaIntraV (o : EdgeOperands) : Parts.Statement (.filterLumaIntraV o) :=
  ⟨fun _ => rfl, rfl, rfl, rfl, fun _ => rfl⟩

theorem Parts.filterLumaIntraH (o : EdgeOperands) : Parts.Statement (.filterLumaIntraH o) :=
  ⟨fun _ => rfl, rfl, rfl, rfl, fun _ => rfl⟩

theorem Parts.filterChromaV (o : EdgeOperands) (t : Tc0) : Parts.Statement (.filterChromaV o t) :=
  ⟨fun _ => rfl, rfl, rfl, rfl, fun _ => rfl⟩

theorem Parts.filterChromaH (o : EdgeOperands) (t : Tc0) : Parts.Statement (.filterChromaH o t) :=
  ⟨fun _ => rfl, rfl, rfl, rfl, fun _ => rfl⟩

theorem Parts.filterChromaIntraV (o : EdgeOperands) : Parts.Statement (.filterChromaIntraV o) :=
  ⟨fun _ => rfl, rfl, rfl, rfl, fun _ => rfl⟩

theorem Parts.filterChromaIntraH (o : EdgeOperands) : Parts.Statement (.filterChromaIntraH o) :=
  ⟨fun _ => rfl, rfl, rfl, rfl, fun _ => rfl⟩

end Sys2Proof.Laws
end

