-- ==== Sys2Proof/Laws/State.lean ====
section
/-! SUPPORT. One lemma per field per update, true by unfolding, so that no later proof unfolds a record update. -/

namespace Sys2Proof.Machine

/-! ## `State.setEngine` -/

section setEngine
variable (s : State) (e : Nat) (eng : Engine)

@[simp] theorem setEngine_engines : (s.setEngine e eng).engines = s.engines.set e eng := rfl
@[simp] theorem setEngine_active : (s.setEngine e eng).active = s.active := rfl
@[simp] theorem setEngine_plane : (s.setEngine e eng).plane = s.plane := rfl
@[simp] theorem setEngine_mem : (s.setEngine e eng).mem = s.mem := rfl
@[simp] theorem setEngine_inputs : (s.setEngine e eng).inputs = s.inputs := rfl
@[simp] theorem setEngine_readData : (s.setEngine e eng).readData = s.readData := rfl
@[simp] theorem setEngine_draws : (s.setEngine e eng).draws = s.draws := rfl
@[simp] theorem setEngine_outcome : (s.setEngine e eng).outcome = s.outcome := rfl

end setEngine

/-! ## `completed` -/

section completed
variable (c : Command) (s : State)

theorem completed_mem : (completed c s).mem = memWrites s.mem (commandStores c s.mem s.activeEngine) := rfl
theorem completed_engines : (completed c s).engines =
    s.engines.set s.active (completedEngine c s.mem s.draws s.activeEngine) := rfl
@[simp] theorem completed_active : (completed c s).active = s.active := rfl
@[simp] theorem completed_plane : (completed c s).plane = s.plane := rfl
@[simp] theorem completed_inputs : (completed c s).inputs = s.inputs := rfl
@[simp] theorem completed_readData : (completed c s).readData = s.readData := rfl
@[simp] theorem completed_draws : (completed c s).draws = s.draws + 4 := rfl
@[simp] theorem completed_outcome : (completed c s).outcome = s.outcome := rfl

end completed

/-! ## `abandoned` -/

section abandoned
variable (e : Nat) (eng : Engine) (c : Command) (s : State)

theorem abandoned_mem : (abandoned e eng c s).mem =
    memWrites s.mem (drawnStores s.draws (commandStores c s.mem eng)) := rfl
@[simp] theorem abandoned_engines : (abandoned e eng c s).engines = s.engines.set e Engine.reset := rfl
@[simp] theorem abandoned_active : (abandoned e eng c s).active = s.active := rfl
@[simp] theorem abandoned_plane : (abandoned e eng c s).plane = s.plane := rfl
@[simp] theorem abandoned_inputs : (abandoned e eng c s).inputs = s.inputs := rfl
@[simp] theorem abandoned_readData : (abandoned e eng c s).readData = s.readData := rfl
@[simp] theorem abandoned_draws : (abandoned e eng c s).draws = s.draws + (commandStores c s.mem eng).length := rfl
@[simp] theorem abandoned_outcome : (abandoned e eng c s).outcome = s.outcome := rfl

end abandoned

/-! ## `placeCommand` -/

section placeCommand
variable (d : Descriptor) (s : State)

@[simp] theorem placeCommand_active : (placeCommand d s).active = s.active := rfl
@[simp] theorem placeCommand_plane : (placeCommand d s).plane = s.plane := rfl
@[simp] theorem placeCommand_mem : (placeCommand d s).mem = s.mem := rfl
@[simp] theorem placeCommand_inputs : (placeCommand d s).inputs = .perform 0 :: s.inputs := rfl
@[simp] theorem placeCommand_readData : (placeCommand d s).readData = s.readData := rfl
@[simp] theorem placeCommand_draws : (placeCommand d s).draws = s.draws := rfl
@[simp] theorem placeCommand_outcome : (placeCommand d s).outcome = .ok := rfl

end placeCommand

/-! ## Engines -/

section completedEngine
variable (c : Command) (m : Memory) (n : Nat) (eng : Engine)

@[simp] theorem completedEngine_staged : (completedEngine c m n eng).staged = eng.staged := rfl
@[simp] theorem completedEngine_wr : (completedEngine c m n eng).wr = eng.wr := rfl
@[simp] theorem completedEngine_busy : (completedEngine c m n eng).busy = false := rfl
@[simp] theorem completedEngine_inflight : (completedEngine c m n eng).inflight = freeDescriptor n := rfl
@[simp] theorem completedEngine_lines : (completedEngine c m n eng).lines = gatherLines c m eng.lines := rfl
@[simp] theorem completedEngine_flags :
    (completedEngine c m n eng).flags = gatherFlags c (gatherLines c m eng.lines) eng.flags := rfl
@[simp] theorem completedEngine_params : (completedEngine c m n eng).params = loadParams c eng.params := rfl

end completedEngine

section latched
variable (eng : Engine)

@[simp] theorem latched_staged : (latched eng).staged = eng.staged := rfl
@[simp] theorem latched_wr : (latched eng).wr = eng.wr := rfl
@[simp] theorem latched_busy : (latched eng).busy = true := rfl
@[simp] theorem latched_inflight : (latched eng).inflight = eng.staged := rfl
@[simp] theorem latched_lines : (latched eng).lines = eng.lines := rfl
@[simp] theorem latched_flags : (latched eng).flags = eng.flags := rfl
@[simp] theorem latched_params : (latched eng).params = eng.params := rfl

end latched

section stageWrite
variable (eng : Engine) (r : RegIndex) (v : Word)

@[simp] theorem stageWrite_busy : (stageWrite eng r v).busy = eng.busy := by cases r <;> rfl
@[simp] theorem stageWrite_inflight : (stageWrite eng r v).inflight = eng.inflight := by cases r <;> rfl
@[simp] theorem stageWrite_lines : (stageWrite eng r v).lines = eng.lines := by cases r <;> rfl
@[simp] theorem stageWrite_flags : (stageWrite eng r v).flags = eng.flags := by cases r <;> rfl
@[simp] theorem stageWrite_params : (stageWrite eng r v).params = eng.params := by cases r <;> rfl

end stageWrite

section resetEngine

@[simp] theorem resetEngine_busy : Engine.reset.busy = false := rfl
@[simp] theorem resetEngine_wr : Engine.reset.wr = ⟨false, false, false, false⟩ := rfl
@[simp] theorem resetEngine_staged : Engine.reset.staged = zeroDescriptor := rfl
@[simp] theorem resetEngine_inflight : Engine.reset.inflight = zeroDescriptor := rfl

end resetEngine

section loadEngine
variable (d : Descriptor) (eng : Engine)

@[simp] theorem loadEngine_busy : (loadEngine d eng).busy = true := rfl
@[simp] theorem loadEngine_inflight : (loadEngine d eng).inflight = d := rfl
@[simp] theorem loadEngine_staged : (loadEngine d eng).staged = eng.staged := rfl
@[simp] theorem loadEngine_wr : (loadEngine d eng).wr = eng.wr := rfl
@[simp] theorem loadEngine_lines : (loadEngine d eng).lines = eng.lines := rfl
@[simp] theorem loadEngine_flags : (loadEngine d eng).flags = eng.flags := rfl
@[simp] theorem loadEngine_params : (loadEngine d eng).params = eng.params := rfl

end loadEngine

/-! ## Line registers -/

theorem Line.get_set_same (l : Line) (v : Byte) (p : Pos) : (l.set v p).get p = v := by cases p <;> rfl

theorem Line.get_set_ne (l : Line) (v : Byte) {p q : Pos} (h : p ≠ q) : (l.set v p).get q = l.get q := by
  cases p <;> cases q <;> first | rfl | exact absurd rfl h

end Sys2Proof.Machine
end

