-- ==== Sys2Proof/Laws/Perform.lean ====
section
/-! SUPPORT. What the perform step can do (46_commands R220): every meaning is the shared perform step, which answers exactly
one next state when the preconditions hold; the samples it leaves; and that no transient register is read before the command
loads it (10_state R43). -/

namespace Sys2Proof.Machine

open Sys2Proof.Safety

/-! ## The perform step -/

/-- Every meaning is the shared perform step on the command the instruction stands for. -/
theorem exec_eq_perform (i : Instr) (s : State) : exec i s = perform (commandOf i) s := by
  cases i <;> rfl

theorem perform_of_performable {c : Command} {s : State} (h : Performable s.plane c) :
    perform c s = .next (completed c s) := by
  unfold perform
  rw [performFault_eq_none.2 h]

/-- Everything the perform step can answer. -/
theorem perform_cases (c : Command) (s : State) :
    (Performable s.plane c ∧ perform c s = .next (completed c s)) ∨
      ∃ r, performFault s.plane c = some r ∧ perform c s = .fault r := by
  cases h : performFault s.plane c with
  | none => exact .inl ⟨performFault_eq_none.1 h, perform_of_performable (performFault_eq_none.1 h)⟩
  | some r => exact .inr ⟨r, rfl, by unfold perform; rw [h]⟩

theorem perform_next {c : Command} {s t : State} (h : perform c s = .next t) :
    Performable s.plane c ∧ t = completed c s := by
  rcases perform_cases c s with ⟨h1, h2⟩ | ⟨r, _, h2⟩
  · rw [h2] at h
    cases h
    exact ⟨h1, rfl⟩
  · rw [h2] at h
    cases h

/-! ## The stores of a command -/

/-- The value a command leaves at position `p` of Line `j`. -/
def storedSample (c : Command) (m : Memory) (e : Engine) (j : Nat) (p : Pos) : Byte :=
  Line.get (lineResult c j (e.flags.getD j zeroFlags) (gatherLine c m j (e.lines.getD j zeroLine))) p

theorem commandStores_eq (c : Command) (m : Memory) (e : Engine) :
    commandStores c m e =
      (sites c (kWrite c.filter.kind)).map fun x => (x.addr.toNat, storedSample c m e x.line x.pos) := by
  simp only [commandStores, sites, List.map_flatMap, lineStores, storedSample, List.map_map]
  rfl

theorem mem_commandStores {c : Command} {m : Memory} {e : Engine} {w : Host.Cell} :
    w ∈ commandStores c m e ↔ ∃ j < lineCount c.filter.kind, ∃ p ∈ kWrite c.filter.kind,
      w = ((siteAddr c j p).toNat, storedSample c m e j p) := by
  rw [commandStores_eq, List.mem_map]
  constructor
  · rintro ⟨x, hx, rfl⟩
    obtain ⟨j, hj, p, hp, rfl⟩ := mem_sites.1 hx
    exact ⟨j, hj, p, hp, rfl⟩
  · rintro ⟨j, hj, p, hp, rfl⟩
    exact ⟨_, mem_sites.2 ⟨j, hj, p, hp, rfl⟩, rfl⟩

theorem commandStores_distinct {plane : List Region} {c : Command} (h : Performable plane c) (m : Memory)
    (e : Engine) : (commandStores c m e).Pairwise fun v w => v.1 ≠ w.1 := by
  rw [commandStores_eq, List.pairwise_map]
  exact writeSites_distinct h

/-- R70: each written position holds the unit's result. -/
theorem memRead_commandStores {plane : List Region} {c : Command} (h : Performable plane c) (m : Memory)
    (e : Engine) {j : Nat} {p : Pos} (hj : j < lineCount c.filter.kind) (hp : p ∈ kWrite c.filter.kind) :
    memRead (memWrites m (commandStores c m e)) (siteAddr c j p).toNat = storedSample c m e j p :=
  memRead_memWrites_of_mem (commandStores_distinct h m e) (mem_commandStores.2 ⟨j, hj, p, hp, rfl⟩)

/-- R70: every other address holds its original value. -/
theorem memRead_commandStores_ne {c : Command} (m : Memory) (e : Engine) {a : Nat}
    (h : ∀ j < lineCount c.filter.kind, ∀ p ∈ kWrite c.filter.kind, (siteAddr c j p).toNat ≠ a) :
    memRead (memWrites m (commandStores c m e)) a = memRead m a := by
  refine memRead_memWrites_of_notMem fun w hw => ?_
  obtain ⟨j, hj, p, hp, rfl⟩ := mem_commandStores.1 hw
  exact h j hj p hp

/-! ## The gather -/

/-- R202: a gathered position holds the plane's sample. -/
theorem gatherLine_get (c : Command) (m : Memory) (j : Nat) (l : Line) {p : Pos} (hp : p ∈ kRead c.filter.kind) :
    (gatherLine c m j l).get p = memRead m (siteAddr c j p).toNat := by
  unfold gatherLine
  generalize hk : c.filter.kind = k at hp
  cases k <;> cases p <;> first | rfl | (exfalso; revert hp; decide)

/-- Positions that are not gathered keep what their registers hold. -/
theorem gatherLine_get_ne (c : Command) (m : Memory) (j : Nat) (l : Line) {p : Pos}
    (hp : p ∉ kRead c.filter.kind) : (gatherLine c m j l).get p = l.get p := by
  unfold gatherLine
  generalize hk : c.filter.kind = k at hp
  cases k <;> cases p <;> first | rfl | (exfalso; revert hp; decide)

/-! ## What a unit reads -/

/-- Two sets of Line registers agree on the positions a kind reads. -/
def AgreeOnReads (k : Kind) (l l' : Line) : Prop :=
  ∀ p ∈ kRead k, l.get p = l'.get p

/-- R126, R140, R43: what a unit leaves at a written position depends on the positions it reads alone, and on no flag
register's earlier content. -/
theorem lineResult_congr (c : Command) (j : Nat) (old old' : LineFlags) {l l' : Line}
    (h : AgreeOnReads c.filter.kind l l') {p : Pos} (hp : p ∈ kWrite c.filter.kind) :
    (lineResult c j old l).get p = (lineResult c j old' l').get p := by
  obtain ⟨f, d, o⟩ := c
  obtain ⟨a3, a2, a1, a0, b0, b1, b2, b3⟩ := l
  obtain ⟨a3', a2', a1', a0', b0', b1', b2', b3'⟩ := l'
  cases f <;>
    simp only [AgreeOnReads, Filter.kind, kRead, List.forall_mem_cons, Line.get, List.not_mem_nil, false_implies,
      implies_true, and_true] at h <;>
    simp only [Filter.kind] at hp
  · obtain ⟨rfl, rfl, rfl, rfl, rfl, rfl⟩ := h
    cases p <;> first | rfl | (exfalso; revert hp; decide)
  · obtain ⟨rfl, rfl, rfl, rfl, rfl, rfl, rfl, rfl⟩ := h
    rfl
  · obtain ⟨rfl, rfl, rfl, rfl⟩ := h
    cases p <;> first | rfl | (exfalso; revert hp; decide)
  · obtain ⟨rfl, rfl, rfl, rfl⟩ := h
    cases p <;> first | rfl | (exfalso; revert hp; decide)

/-- R43: the stores of a command do not depend on the engine that performs it. -/
theorem storedSample_engine (c : Command) (m : Memory) (e e' : Engine) (j : Nat) {p : Pos}
    (hp : p ∈ kWrite c.filter.kind) : storedSample c m e j p = storedSample c m e' j p := by
  refine lineResult_congr c j _ _ (fun q hq => ?_) hp
  rw [gatherLine_get c m j _ hq, gatherLine_get c m j _ hq]

theorem commandStores_engine (c : Command) (m : Memory) (e e' : Engine) :
    commandStores c m e = commandStores c m e' := by
  rw [commandStores_eq, commandStores_eq]
  refine List.map_congr_left fun x hx => ?_
  obtain ⟨j, _, p, hp, rfl⟩ := mem_sites.1 hx
  rw [storedSample_engine c m e e' j hp]

/-- The stores of a command depend on the samples of the plane alone. -/
theorem commandStores_congr (c : Command) {m m' : Memory} (e : Engine) (h : ∀ a, memRead m a = memRead m' a) :
    commandStores c m e = commandStores c m' e := by
  have hg : ∀ j l, gatherLine c m j l = gatherLine c m' j l := by
    intro j l
    unfold gatherLine
    simp only [h]
  simp only [commandStores, hg]

/-- The Line registers a kind's unit reads, taken from the plane; the others zero. -/
def planeLine (c : Command) (m : Memory) (j : Nat) : Line :=
  gatherLine c m j zeroLine

theorem storedSample_planeLine (c : Command) (m : Memory) (e : Engine) (j : Nat) {p : Pos}
    (hp : p ∈ kWrite c.filter.kind) :
    storedSample c m e j p = (lineResult c j zeroFlags (planeLine c m j)).get p := by
  refine lineResult_congr c j _ _ (fun q hq => ?_) hp
  rw [planeLine, gatherLine_get c m j _ hq, gatherLine_get c m j _ hq]

/-- R70: every footprint sample after a command. -/
theorem memRead_completed {c : Command} {s : State} (h : Performable s.plane c) {j : Nat} {p : Pos}
    (hj : j < lineCount c.filter.kind) (hp : p ∈ kReq c.filter.kind) :
    memRead (completed c s).mem (siteAddr c j p).toNat =
      if p ∈ kWrite c.filter.kind then (lineResult c j zeroFlags (planeLine c s.mem j)).get p
      else memRead s.mem (siteAddr c j p).toNat := by
  show memRead (memWrites s.mem (commandStores c s.mem s.activeEngine)) _ = _
  split
  · rename_i hw
    rw [memRead_commandStores h _ _ hj hw, storedSample_planeLine _ _ _ _ hw]
  · rename_i hw
    refine memRead_commandStores_ne _ _ fun j' hj' p' hp' he => hw ?_
    have hr := (kWrite_sublist _).subset hp'
    have h1 := (inPlane_bounds (site_inPlane h hj hp)).1
    have h2 := (inPlane_bounds (site_inPlane h hj' hr)).1
    rw [(site_inj h hj hp hj' hr (by omega)).2]
    exact hp'

/-! ## The transient register files -/

@[simp] theorem updateLines_length {α : Type} (n : Nat) (d : α) (f : Nat → α → α) (old : List α) :
    (updateLines n d f old).length = Config.lumaLines := by
  simp [updateLines]

@[simp] theorem gatherLines_length (c : Command) (m : Memory) (old : List Line) :
    (gatherLines c m old).length = Config.lumaLines := by
  simp [gatherLines]

@[simp] theorem gatherFlags_length (c : Command) (lines : List Line) (old : List LineFlags) :
    (gatherFlags c lines old).length = Config.lumaLines := by
  simp [gatherFlags]

end Sys2Proof.Machine
end

