-- ==== Sys2Proof/Laws/Step.lean ====
section
/-! SUPPORT. Everything a step can do, said once: whose turn it is for each pending move, what each host move answers, and the
inversion of a step that answers a next state. -/

namespace Sys2Proof.Machine

open Sys2Proof.Safety

/-! ## Turns -/

/-- The state a turn is taken from: the pending moves already advanced. -/
def advanced (s : State) : State :=
  { s with inputs := (nextTurn s).2 }

theorem step_of_ok {s : State} (h : s.outcome = .ok) : step s = takeTurn (nextTurn s).1 (advanced s) := by
  unfold step systemStep
  split
  · rename_i hr
    rw [h] at hr
    cases hr
  · rename_i hr
    rw [h] at hr
    cases hr
  · rfl

theorem step_of_not_ok {s t : State} (h : step s = .next t) : s.outcome = .ok := by
  unfold step systemStep at h
  cases ho : s.outcome with
  | ok => rfl
  | fault r => rw [ho] at h; cases h
  | refused r => rw [ho] at h; cases h

theorem nextTurn_perform {s : State} {e : Nat} {rest : List Input} (h : s.inputs = .perform e :: rest) :
    nextTurn s = (.engine e, rest) := by
  unfold nextTurn
  rw [h]

theorem nextTurn_go_busy {s : State} {e : Nat} {v : Word} {rest : List Input}
    (h : s.inputs = .write e .status v :: rest) (hb : s.busyAt e = true) :
    nextTurn s = (.engine e, s.inputs) := by
  unfold nextTurn
  rw [h]
  simp [hb]

theorem nextTurn_go_idle {s : State} {e : Nat} {v : Word} {rest : List Input}
    (h : s.inputs = .write e .status v :: rest) (hb : s.busyAt e = false) :
    nextTurn s = (.host (.write e .status v), rest) := by
  unfold nextTurn
  rw [h]
  simp [hb]

theorem nextTurn_write {s : State} {e : Nat} {r : RegIndex} {v : Word} {rest : List Input} (hr : r ≠ .status)
    (h : s.inputs = .write e r v :: rest) : nextTurn s = (.host (.write e r v), rest) := by
  unfold nextTurn
  rw [h]
  cases r <;> first | rfl | exact absurd rfl hr

theorem nextTurn_read {s : State} {e : Nat} {r : RegIndex} {rest : List Input} (h : s.inputs = .read e r :: rest) :
    nextTurn s = (.host (.read e r), rest) := by
  unfold nextTurn
  rw [h]

theorem nextTurn_planeRead {s : State} {a : Nat} {rest : List Input} (h : s.inputs = .planeRead a :: rest) :
    nextTurn s = (.host (.planeRead a), rest) := by
  unfold nextTurn
  rw [h]

theorem nextTurn_planeWrite {s : State} {a : Nat} {v : Byte} {rest : List Input}
    (h : s.inputs = .planeWrite a v :: rest) : nextTurn s = (.host (.planeWrite a v), rest) := by
  unfold nextTurn
  rw [h]

theorem nextTurn_reset {s : State} {e : Nat} {rest : List Input} (h : s.inputs = .reset e :: rest) :
    nextTurn s = (.host (.reset e), rest) := by
  unfold nextTurn
  rw [h]

theorem nextTurn_empty_busy {s : State} {e : Nat} (h : s.inputs = []) (hb : s.firstBusy = some e) :
    nextTurn s = (.engine e, []) := by
  unfold nextTurn
  rw [h]
  simp only [hb]

theorem nextTurn_empty_idle {s : State} (h : s.inputs = []) (hb : s.firstBusy = none) : nextTurn s = (.idle, []) := by
  unfold nextTurn
  rw [h]
  simp only [hb]

theorem busyAt_of_getElem? {s : State} {e : Nat} {eng : Engine} (h : s.engines[e]? = some eng) :
    s.busyAt e = eng.busy := by
  simp [State.busyAt, List.getD, h]

theorem inFlight_of_busy {eng : Engine} {i : Instr} (hb : eng.busy = true) (hd : decode eng.inflight = .ok i) :
    inFlight eng = some (commandOf i) := by
  simp [inFlight, hb, hd, Except.toOption]

theorem inFlight_of_idle {eng : Engine} (hb : eng.busy = false) : inFlight eng = none := by
  simp [inFlight, hb]

/-- The perform step of a busy engine is the meaning of its command. -/
theorem engineTurn_busy {s : State} {e : Nat} {eng : Engine} {i : Instr} (he : s.engines[e]? = some eng)
    (hb : eng.busy = true) (hd : decode eng.inflight = .ok i) : engineTurn e s = exec i { s with active := e } := by
  unfold engineTurn
  simp [he, hb, hd]

/-! ## What a step can do -/

/-- What a step that answers a next state did, from the state `s` with its pending moves advanced. -/
inductive Effect (s t : State) : Prop where
  /-- Nothing. -/
  | nothing (h : t = s)
  /-- Engine `e` performed its command. -/
  | performed (e : Nat) (eng : Engine) (i : Instr) (he : s.engines[e]? = some eng) (hb : eng.busy = true)
      (hd : decode eng.inflight = .ok i) (hp : Performable s.plane (commandOf i))
      (h : t = completed (commandOf i) { s with active := e })
  /-- The host wrote a descriptor register. -/
  | staged (e : Nat) (eng : Engine) (r : RegIndex) (v : Word) (he : s.engines[e]? = some eng)
      (h : t = s.setEngine e (stageWrite eng r v))
  /-- A GO was taken. -/
  | latched (e : Nat) (eng : Engine) (i : Instr) (he : s.engines[e]? = some eng) (hb : eng.busy = false)
      (hd : decode eng.staged = .ok i) (hw : firstUnwritten eng.wr = none)
      (hs : sharingEngine s e ((footprint (commandOf i)).map Site.addr) = none)
      (h : t = s.setEngine e (latched eng))
  /-- The host read a register or a sample. -/
  | read (v : Word) (n : Nat) (h : t = { s with readData := v, draws := n })
  /-- The host stored a sample. -/
  | stored (a : Nat) (v : Byte) (ha : inPlane s.plane (a : Int) = true)
      (h : t = { s with mem := memWrite s.mem a v })
  /-- An idle engine was reset. -/
  | resetIdle (e : Nat) (eng : Engine) (he : s.engines[e]? = some eng) (h : t = s.setEngine e Engine.reset)
  /-- A busy engine was reset and its command abandoned. -/
  | resetBusy (e : Nat) (eng : Engine) (c : Command) (he : s.engines[e]? = some eng) (hc : inFlight eng = some c)
      (hp : Performable s.plane c) (h : t = abandoned e eng c s)

theorem engineTurn_effect {s t : State} {e : Nat} (h : engineTurn e s = .next t) : Effect s t := by
  unfold engineTurn at h
  split at h
  · cases h
  · rename_i eng he
    split at h
    · rename_i hb
      split at h
      · rename_i i hd
        rw [exec_eq_perform] at h
        obtain ⟨hp, ht⟩ := perform_next h
        exact .performed e eng i he hb hd hp ht
      · cases h
    · cases h
      exact .nothing rfl

theorem hostWrite_effect {s t : State} {e : Nat} {r : RegIndex} {v : Word} (hi : r = .status → s.busyAt e = false)
    (h : hostWrite e r v s = .next t) : Effect s t := by
  unfold hostWrite at h
  split at h
  · cases h
  · rename_i eng he
    split at h
    · unfold go at h
      split at h
      · cases h
      · rename_i i hd
        split at h
        · cases h
        · rename_i hw
          split at h
          · cases h
          · rename_i hs
            cases h
            exact .latched e eng i he (by rw [← busyAt_of_getElem? he]; exact hi rfl) hd hw hs rfl
    all_goals
      cases h
      exact .staged e eng _ v he rfl

theorem hostRead_effect {s t : State} {e : Nat} {r : RegIndex} (h : hostRead e r s = .next t) : Effect s t := by
  unfold hostRead at h
  split at h
  · cases h
  · split at h <;> cases h
    · exact .read _ s.draws rfl
    · exact .read _ _ rfl

theorem hostAccessRefusal_eq_none {s : State} {a : Nat} (h : hostAccessRefusal s a = none) :
    inPlane s.plane (a : Int) = true ∧ inFlightTouches s a = false := by
  unfold hostAccessRefusal at h
  split at h
  · cases h
  · split at h
    · cases h
    · rename_i h1 h2
      exact ⟨by simpa using h1, by simpa using h2⟩

theorem hostReset_effect {s t : State} {e : Nat} (h : hostReset e s = .next t) : Effect s t := by
  unfold hostReset at h
  split at h
  · cases h
  · rename_i eng he
    split at h
    · cases h
      exact .resetIdle e eng he rfl
    · rename_i c hc
      split at h
      · cases h
      · rename_i hp
        cases h
        exact .resetBusy e eng c he hc (performFault_eq_none.1 hp) rfl

theorem hostPlaneWrite_effect {s t : State} {a : Nat} {v : Byte} (h : hostPlaneWrite a v s = .next t) :
    Effect s t := by
  unfold hostPlaneWrite at h
  cases hn : hostAccessRefusal s a with
  | some r => rw [hn] at h; cases h
  | none =>
    rw [hn] at h
    exact .stored a v (hostAccessRefusal_eq_none hn).1 (Host.Outcome.next.inj h).symm

theorem hostPlaneRead_effect {s t : State} {a : Nat} (h : hostPlaneRead a s = .next t) : Effect s t := by
  unfold hostPlaneRead at h
  cases hn : hostAccessRefusal s a with
  | some r => rw [hn] at h; cases h
  | none =>
    rw [hn] at h
    exact .read _ _ (Host.Outcome.next.inj h).symm

theorem hostTurn_effect {s t : State} {i : Input} (hi : ∀ e v, i = .write e .status v → s.busyAt e = false)
    (h : hostTurn i s = .next t) : Effect s t := by
  unfold hostTurn at h
  split at h
  · rename_i e r v
    exact hostWrite_effect (fun hr => hi e v (by rw [hr])) h
  · exact hostRead_effect h
  · exact hostPlaneWrite_effect h
  · exact hostPlaneRead_effect h
  · exact hostReset_effect h
  · exact engineTurn_effect h

/-- A GO gets to the host's turn only on an idle engine (R38). -/
theorem nextTurn_go {s : State} {e : Nat} {v : Word} (h : (nextTurn s).1 = .host (.write e .status v)) :
    s.busyAt e = false := by
  unfold nextTurn at h
  split at h
  · split at h <;> cases h
  · split at h
    · cases h
    · split at h
      · cases h
      · rename_i hb
        injection h with h
        injection h with h1 h2 h3
        subst h1
        simpa using hb
    all_goals
      injection h with h
      cases h

/-- The inversion of a step: it was taken from an ok state, and did one of the listed effects. -/
theorem step_effect {s t : State} (h : step s = .next t) : s.outcome = .ok ∧ Effect (advanced s) t := by
  have ho := step_of_not_ok h
  refine ⟨ho, ?_⟩
  rw [step_of_ok ho] at h
  cases ht : (nextTurn s).1 with
  | idle =>
    rw [ht] at h
    cases h
    exact .nothing rfl
  | engine e =>
    rw [ht] at h
    exact engineTurn_effect h
  | host i =>
    rw [ht] at h
    refine hostTurn_effect (fun e v hiv => ?_) h
    subst hiv
    exact nextTurn_go (s := s) ht

/-! ## What a step can fault with -/

theorem firstUnwritten_le {w : Written} {k : Nat} (h : firstUnwritten w = some k) : k ≤ 3 := by
  obtain ⟨a, b, c, d⟩ := w
  cases a <;> cases b <;> cases c <;> cases d <;> simp [firstUnwritten] at h <;> omega

theorem engineTurn_fault {s : State} {e : Nat} {r : Fault} (h : engineTurn e s = .fault r) :
    ∃ c, performFault s.plane c = some r := by
  unfold engineTurn at h
  split at h
  · cases h
  · split at h
    · split at h
      · rename_i i _
        rw [exec_eq_perform] at h
        rcases perform_cases (commandOf i) { s with active := e } with ⟨_, h2⟩ | ⟨r', h1, h2⟩
        · rw [h2] at h
          cases h
        · rw [h2] at h
          cases h
          exact ⟨_, h1⟩
      · cases h
    · cases h

theorem hostReset_fault {s : State} {e : Nat} {r : Fault} (h : hostReset e s = .fault r) :
    ∃ c, performFault s.plane c = some r := by
  unfold hostReset at h
  split at h
  · cases h
  · split at h
    · cases h
    · split at h
      · rename_i hp
        cases h
        exact ⟨_, hp⟩
      · cases h

theorem hostWrite_fault {s : State} {e : Nat} {r : RegIndex} {v : Word} {f : Fault} (h : hostWrite e r v s = .fault f) :
    ∃ k ≤ 3, f = .unwrittenDescriptor k := by
  unfold hostWrite at h
  split at h
  · cases h
  · split at h
    · unfold go at h
      split at h
      · cases h
      · split at h
        · rename_i k hk
          cases h
          exact ⟨k, firstUnwritten_le hk, rfl⟩
        · split at h <;> cases h
    all_goals cases h

/-- R226, R254: a step of an unmarked system faults for a descriptor register never written, or for the preconditions of a
command. -/
theorem step_fault {s : State} {r : Fault} (ho : s.outcome = .ok) (h : step s = .fault r) :
    (∃ k ≤ 3, r = .unwrittenDescriptor k) ∨ ∃ c, performFault s.plane c = some r := by
  rw [step_of_ok ho] at h
  cases ht : (nextTurn s).1 with
  | idle =>
    rw [ht] at h
    cases h
  | engine e =>
    rw [ht] at h
    exact .inr (engineTurn_fault (s := advanced s) h)
  | host i =>
    rw [ht] at h
    cases i with
    | write e r' v => exact .inl (hostWrite_fault h)
    | read e r' =>
      change hostRead e r' _ = _ at h
      unfold hostRead at h
      split at h
      · cases h
      · split at h <;> cases h
    | planeWrite a v =>
      change hostPlaneWrite a v _ = _ at h
      unfold hostPlaneWrite at h
      split at h <;> cases h
    | planeRead a =>
      change hostPlaneRead a _ = _ at h
      unfold hostPlaneRead at h
      split at h <;> cases h
    | reset e => exact .inr (hostReset_fault (s := advanced s) h)
    | perform e => exact .inr (engineTurn_fault (s := advanced s) h)

end Sys2Proof.Machine
end

