-- ==== Sys2Proof/Tests/Slice0.lean ====
section
/-! SUPPORT. Tests: ill-formed terms the checks refuse, words written out from the spec's encoding, one step of each command
with the numbers of 95_test_vectors, and for every statement with hypotheses a case that meets them. -/

namespace Sys2Proof.Tests

open Sys2Proof.Machine Sys2Proof.Safety

/-! ## Ill-formed terms (30_encoding R98) -/

/-- A tc0 list every entry of which is in range. -/
def okTc0 : Tc0 := ⟨2, -1, 0, 255⟩

theorem test_wellFormed_accepts_extremes :
    (Instr.filterLumaV ⟨0, -2147483648, 0, 0⟩ ⟨-1, -1, -1, -1⟩).wellFormed = true ∧
    (Instr.filterChromaIntraH ⟨4294967295, 2147483647, 255, 255⟩).wellFormed = true := by decide

theorem test_illFormed_edgePtr : (Instr.filterLumaIntraV ⟨-1, 64, 20, 10⟩).wellFormed = false ∧
    (Instr.filterLumaIntraH ⟨4294967296, 64, 20, 10⟩).wellFormed = false := by decide

theorem test_illFormed_stride : (Instr.filterChromaIntraV ⟨0x1000, -2147483649, 20, 10⟩).wellFormed = false ∧
    (Instr.filterChromaIntraH ⟨0x1000, 2147483648, 20, 10⟩).wellFormed = false := by decide

theorem test_illFormed_alpha : (Instr.filterLumaV ⟨0x1000, 64, -1, 10⟩ okTc0).wellFormed = false ∧
    (Instr.filterChromaV ⟨0x1000, 64, 256, 10⟩ okTc0).wellFormed = false := by decide

theorem test_illFormed_beta : (Instr.filterLumaH ⟨0x1000, 64, 20, -1⟩ okTc0).wellFormed = false ∧
    (Instr.filterChromaH ⟨0x1000, 64, 20, 256⟩ okTc0).wellFormed = false := by decide

theorem test_illFormed_tc0 : ∀ t ∈ [(⟨-2, 0, 0, 0⟩ : Tc0), ⟨256, 0, 0, 0⟩, ⟨0, -2, 0, 0⟩, ⟨0, 256, 0, 0⟩, ⟨0, 0, -2, 0⟩,
    ⟨0, 0, 256, 0⟩, ⟨0, 0, 0, -2⟩, ⟨0, 0, 0, 256⟩],
    (Instr.filterLumaV ⟨0x1000, 64, 20, 10⟩ t).wellFormed = false ∧
      (Instr.filterChromaH ⟨0x1000, 64, 20, 10⟩ t).wellFormed = false := by decide

/-! ## Words written out from the encoding (30_encoding R90 to R93)

Bits 31..28 reserved, 27..24 SKIP, 23..16 beta, 15..8 alpha, 7..3 reserved, 2 DIR, 1..0 KIND. -/

theorem test_decode_filterLumaV :
    decode ⟨0b0000010000001010_0001010000000000#32, 0b00000000000000000000001000000010#32, 0x1000#32, 32#32⟩ =
      .ok (.filterLumaV ⟨4096, 32, 20, 10⟩ ⟨2, 2, -1, 0⟩) := by decide

theorem test_decode_filterLumaH :
    decode ⟨0b0000000000001010_0001010000000100#32, 0b00000010000000100000001000000010#32, 0x1208#32, 64#32⟩ =
      .ok (.filterLumaH ⟨4616, 64, 20, 10⟩ ⟨2, 2, 2, 2⟩) := by decide

theorem test_decode_filterLumaIntraV :
    decode ⟨0b0000000000001010_0010100000000001#32, 0#32, 0x1008#32, 64#32⟩ =
      .ok (.filterLumaIntraV ⟨4104, 64, 40, 10⟩) := by decide

theorem test_decode_filterLumaIntraH :
    decode ⟨0b0000000000001010_0001010000000101#32, 0#32, 0x40B0#32, 0xFFFFFFF0#32⟩ =
      .ok (.filterLumaIntraH ⟨16560, -16, 20, 10⟩) := by decide

theorem test_decode_filterChromaV :
    decode ⟨0b0000000000001010_0001010000000010#32, 0b00000010000000100000001000000010#32, 0x1004#32, 64#32⟩ =
      .ok (.filterChromaV ⟨4100, 64, 20, 10⟩ ⟨2, 2, 2, 2⟩) := by decide

theorem test_decode_filterChromaH :
    decode ⟨0b0000001000001010_0001010000000110#32, 0b00000010000000100000000000000010#32, 0x1108#32, 64#32⟩ =
      .ok (.filterChromaH ⟨4360, 64, 20, 10⟩ ⟨2, -1, 2, 2⟩) := by decide

theorem test_decode_filterChromaIntraV :
    decode ⟨0b0000000000011110_0001010000000011#32, 0#32, 0x1004#32, 64#32⟩ =
      .ok (.filterChromaIntraV ⟨4100, 64, 20, 30⟩) := by decide

theorem test_decode_filterChromaIntraH :
    decode ⟨0b0000000000000110_0010100000000111#32, 0#32, 0x2008#32, 0xFFFFFFC0#32⟩ =
      .ok (.filterChromaIntraH ⟨8200, -64, 40, 6⟩) := by decide

/-- EN-7: an intra command reads neither SKIP nor CMD_TC0 (R94). -/
theorem test_decode_intra_ignores_tc0 :
    decode ⟨0x0F0A2801#32, 0xFFFFFFFF#32, 0x1008#32, 64#32⟩ = .ok (.filterLumaIntraV ⟨4104, 64, 40, 10⟩) := by decide

/-- R95: every reserved bit alone is rejected. -/
theorem test_reserved_bits_rejected : ∀ b ∈ [3, 4, 5, 6, 7, 28, 29, 30, 31],
    decode ⟨0x000A1400#32 ||| (1#32 <<< b), 0#32, 0x1000#32, 64#32⟩ = .error .reservedEncoding := by decide

/-- R98: the extremes of every operand, EN-9. -/
theorem test_encode_extremes : encode (.filterLumaV ⟨4294967295, -2147483648, 255, 255⟩ ⟨255, -1, -1, 128⟩) =
    ⟨0x06FFFF00#32, 0x800000FF#32, 0xFFFFFFFF#32, 0x80000000#32⟩ := by decide

theorem test_table_word : decodeTableWord 128 0x00000040_00001108_02020002_020A1406 =
    some (.filterChromaH ⟨4360, 64, 20, 10⟩ ⟨2, -1, 2, 2⟩) := by decide

/-- R98: the assembler rejects an operand out of range. -/
theorem test_assembleLine_rejects_range :
    assembleLine "filter_chroma_intra.h 0x2008, -64, 256, 6".toList = none := by decide

/-! ## The memory -/

theorem test_memory_canonical : memWrite (memWrite [] 9 5#8) 4 7#8 = [(4, 7#8), (9, 5#8)] ∧
    memWrite [(4, 7#8), (9, 5#8)] 4 0#8 = [(9, 5#8)] := by decide

/-! ## One command on a small plane (95_test_vectors L3) -/

/-- A system of one engine whose plane is `size` addresses from `base`, with the given samples. -/
def small (base size : Nat) (mem : Memory) : State :=
  State.resetWith 1 [⟨base, size⟩] mem []

/-- Eight samples, `step` addresses apart, the first at `a`. -/
def run8 (a step : Nat) (l : Line) : List Host.Cell :=
  [(a, l.p3), (a + step, l.p2), (a + 2 * step, l.p1), (a + 3 * step, l.p0), (a + 4 * step, l.q0), (a + 5 * step, l.q1),
    (a + 6 * step, l.q2), (a + 7 * step, l.q3)]

/-- The samples at some addresses after an outcome; nothing where it is no next state. -/
def samples (o : Host.Outcome State Fault Refusal) (as : List Nat) : Option (List Nat) :=
  match o with
  | .next t => some (as.map fun a => (memRead t.mem a).toNat)
  | .fault _ => none
  | .refused _ => none

/-- Eight addresses, `step` apart, the first at `a`. -/
def eight (a step : Nat) : List Nat :=
  (List.range 8).map fun n => a + n * step

/-- PR-1, row 0 (LN-1). -/
theorem test_filterLumaV :
    samples (exec (.filterLumaV ⟨0x1008, 16, 20, 10⟩ ⟨2, -1, 0, 3⟩)
      (small 0x1000 256 (run8 0x1004 1 ⟨90#8, 92#8, 94#8, 96#8, 100#8, 98#8, 96#8, 94#8⟩))) (eight 0x1004 1) =
      some [90, 92, 95, 98, 98, 97, 96, 94] := by decide

/-- PR-1, row 14, as a column (LN-12; R207). Column 14 is in group 3. -/
theorem test_filterLumaH :
    samples (exec (.filterLumaH ⟨0x1080, 16, 20, 10⟩ ⟨2, -1, 0, 3⟩)
      (small 0x1000 256 ((0x104E + 16, 8#8) :: (0x104E + 32, 8#8) :: (0x104E + 48, 8#8) :: (0x108E, 20#8) ::
        (0x108E + 16, 20#8) :: (0x108E + 32, 20#8) :: []))) (eight 0x104E 16) =
      some [0, 8, 11, 13, 15, 17, 20, 0] := by decide

set_option maxRecDepth 4000 in
/-- LS-1 in row 0 of a vertical edge. -/
theorem test_filterLumaIntraV :
    samples (exec (.filterLumaIntraV ⟨0x1008, 16, 40, 10⟩)
      (small 0x1000 256 (run8 0x1004 1 ⟨80#8, 84#8, 88#8, 92#8, 96#8, 100#8, 104#8, 108#8⟩))) (eight 0x1004 1) =
      some [80, 86, 90, 92, 96, 98, 102, 108] := by decide

set_option maxRecDepth 4000 in
/-- PR-4, column 5 (LS-5): the plane bottom-up, `stride` = -16, p3 at the highest address. -/
theorem test_filterLumaIntraH :
    samples (exec (.filterLumaIntraH ⟨0x40B0, -16, 20, 10⟩)
      (small 0x4000 256 (run8 0x4085 16 ⟨112#8, 108#8, 104#8, 100#8, 90#8, 88#8, 84#8, 80#8⟩))) (eight 0x4085 16) =
      some [112, 108, 104, 99, 93, 88, 84, 80] := by decide

/-- CN-5 in row 3 of a vertical edge: group 1 is rows 2 and 3 (90_conflicts C10). -/
theorem test_filterChromaV :
    samples (exec (.filterChromaV ⟨0x2004, 8, 20, 10⟩ ⟨-1, 4, -1, -1⟩)
      (small 0x2000 64 [(0x201B, 1#8), (0x201D, 9#8)])) [0x201A, 0x201B, 0x201C, 0x201D] =
      some [0, 0, 2, 9] := by decide

/-- PR-2 command 1, column 0: rows 2..5 hold 102, 101, 107, 108. -/
theorem test_filterChromaH :
    samples (exec (.filterChromaH ⟨0x2020, 8, 20, 10⟩ ⟨3, 3, 3, 3⟩)
      (small 0x2000 64 [(0x2010, 102#8), (0x2018, 101#8), (0x2020, 107#8), (0x2028, 108#8)]))
      [0x2010, 0x2018, 0x2020, 0x2028] = some [102, 103, 105, 108] := by decide

/-- PR-3 command 1, one row. -/
theorem test_filterChromaIntraV :
    samples (exec (.filterChromaIntraV ⟨0x3044, 16, 20, 30⟩)
      (small 0x3000 256 [(0x3042, 100#8), (0x3043, 96#8), (0x3044, 90#8), (0x3045, 80#8)]))
      [0x3042, 0x3043, 0x3044, 0x3045] = some [100, 94, 88, 80] := by decide

/-- The same from the words of the descriptor: the next step performs a placed table word. -/
theorem test_placed_word_steps :
    samples (step ((small 0x3000 256 [(0x3042, 100#8), (0x3043, 96#8), (0x3044, 90#8), (0x3045, 80#8)]).withFetchWord 128
      0x00000010_00003044_00000000_001E1403)) [0x3042, 0x3043, 0x3044, 0x3045] = some [100, 94, 88, 80] := by decide

/-- CS-1 as a column of a horizontal edge. -/
theorem test_filterChromaIntraH :
    samples (exec (.filterChromaIntraH ⟨0x3040, 16, 20, 30⟩)
      (small 0x3000 256 [(0x3027, 100#8), (0x3037, 96#8), (0x3047, 90#8), (0x3057, 80#8)]))
      [0x3027, 0x3037, 0x3047, 0x3057] = some [100, 94, 88, 80] := by decide

/-! ## Addresses and faults (95_test_vectors AD, FT) -/

/-- AD-3: with a negative stride the p side is at higher addresses. -/
theorem test_addresses_negative_stride :
    [(0, Pos.p3), (0, Pos.p0), (0, Pos.q0), (0, Pos.q3), (1, Pos.q0), (15, Pos.p3), (15, Pos.q3)].map
      (fun x => siteAddr (commandOf (.filterLumaIntraH ⟨0x40B0, -16, 20, 10⟩)) x.1 x.2) =
      [0x40F0, 0x40C0, 0x40B0, 0x4080, 0x40B1, 0x40FF, 0x408F] := by decide

/-- FT-3 and FT-6. -/
theorem test_overlap_pairs :
    performFault State.reset.plane (commandOf (.filterLumaV ⟨0x1000, -7, 20, 10⟩ ⟨1, 1, 1, 1⟩)) =
      some (.footprintOverlap 0 (-4) 1 3) ∧
    performFault State.reset.plane (commandOf (.filterChromaH ⟨0x1000, -7, 20, 10⟩ ⟨1, 1, 1, 1⟩)) =
      some (.footprintOverlap 0 (-3) 7 (-2)) := by decide

/-- FT-10 and FT-15. -/
theorem test_out_of_plane :
    performFault State.reset.plane (commandOf (.filterChromaIntraH ⟨0x10, 16, 20, 10⟩)) = some (.outOfPlane (-32)) ∧
    performFault [⟨0x3000, 256⟩] (commandOf (.filterLumaH ⟨0x3020, 16, 20, 10⟩ ⟨1, 1, 1, 1⟩)) =
      some (.outOfPlane 0x2FE0) := by decide

/-- PR-5: the fault and the refusal at GO. -/
theorem test_go_faults :
    (∀ s, go 0 { Engine.reset with staged := ⟨0x001E1403#32, 0#32, 0x3044#32, 0x10#32⟩, wr := ⟨true, false, true, true⟩ } s =
      .fault (.unwrittenDescriptor 1)) ∧
    ∀ s, go 0 { Engine.reset with staged := ⟨0x001E140B#32, 0#32, 0x3044#32, 0x10#32⟩, wr := ⟨true, true, true, true⟩ } s =
      .refused .reservedEncoding := ⟨fun _ => rfl, fun _ => rfl⟩

/-! ## Cases that meet the hypotheses of the statements: encoding -/

theorem witness_DecodeOfEncodeIsIdentity : ∀ i ∈ [Instr.filterLumaV ⟨0, -2147483648, 0, 255⟩ ⟨-1, 255, 0, -1⟩,
    .filterLumaH ⟨4294967295, 2147483647, 255, 0⟩ ⟨0, -1, 255, 1⟩, .filterLumaIntraV ⟨0, -1, 255, 255⟩,
    .filterLumaIntraH ⟨4294967295, 0, 0, 0⟩, .filterChromaV ⟨1, 1, 1, 1⟩ ⟨255, 255, 255, 255⟩,
    .filterChromaH ⟨0, 0, 0, 0⟩ ⟨-1, -1, -1, -1⟩, .filterChromaIntraV ⟨2147483648, -2147483648, 128, 127⟩,
    .filterChromaIntraH ⟨4294967295, 2147483647, 255, 255⟩], i.wellFormed = true := by decide

/-- The strides on both sides of the sign, every SKIP bit set and clear, every field at its top. -/
theorem witness_DecodedOperandsAreTheFields :
    decode ⟨0x0FFFFF00#32, 0xFFFFFFFF#32, 0xFFFFFFFF#32, 0x7FFFFFFF#32⟩ =
      .ok (.filterLumaV ⟨4294967295, 2147483647, 255, 255⟩ ⟨-1, -1, -1, -1⟩) ∧
    decode ⟨0x00000006#32, 0xFFFFFFFF#32, 0x00000000#32, 0x80000000#32⟩ =
      .ok (.filterChromaH ⟨0, -2147483648, 0, 0⟩ ⟨255, 255, 255, 255⟩) := by decide

theorem witness_DecodedTc0IsTheSourceSet : ∃ i t,
    decode ⟨0x08000000#32, 0x7F0001FF#32, 0x00001000#32, 0x00000010#32⟩ = .ok i ∧ i.tc0 = some t ∧
      t = ⟨255, 1, 0, -1⟩ := ⟨_, _, rfl, rfl, rfl⟩

theorem witness_DecodedCommandsAreWellFormed :
    (decode ⟨0x06FFFF00#32, 0x800000FF#32, 0xFFFFFFFF#32, 0x80000000#32⟩).toOption.isSome = true := by decide

/-- With every bit outside the map's mask set. -/
theorem witness_OpcodeMapSelectsTheCommand (k : Kind) (dir : Dir) :
    (0x0FFFFF00#32 ||| (dirCode dir <<< 2) ||| kindCode k) &&& 0xF00000FF#32 = (dirCode dir <<< 2) ||| kindCode k := by
  cases k <;> cases dir <;> rfl

theorem witness_IntraCommandsIgnoreTc0 :
    (0x0F0A2801#32).toNat % 2 = 1 ∧ (0x0F0A2801#32) &&& 0xF0FFFFFF#32 = (0x000A2801#32) &&& 0xF0FFFFFF#32 := by decide

theorem witness_AssembledWords : (Instr.filterLumaV ⟨-1, 0, 0, 0⟩ okTc0).wellFormed = false ∧
    (Instr.filterLumaV ⟨0, -1, 255, 255⟩ okTc0).wellFormed = true ∧
    (Instr.filterChromaIntraH ⟨0, -1, 255, 255⟩).wellFormed = true := by decide

theorem witness_ReencodingKeepsTheReadFields : ∃ i,
    decode ⟨0x06FFFF00#32, 0x80AABBFF#32, 0xFFFFFFFF#32, 0x80000000#32⟩ = .ok i ∧ i.tc0.isSome = true ∧
      (0x06FFFF00#32).toNat / 2 ^ (24 + 3) % 2 = 0 ∧ (0x06FFFF00#32).toNat / 2 ^ (24 + 0) % 2 = 0 := ⟨_, rfl, rfl, rfl, rfl⟩

/-! ## Engines in flight -/

/-- EN-12's kind of words: filter_chroma_intra.v at 0x3044, stride 16. -/
def chromaWords : Descriptor := ⟨0x001E1403#32, 0#32, 0x3044#32, 0x10#32⟩

/-- The command of `chromaWords`. -/
def chromaInstr : Instr := .filterChromaIntraV ⟨0x3044, 16, 20, 30⟩

/-- An idle engine with a legal descriptor staged and every register written. -/
def ready : Engine := { Engine.reset with staged := chromaWords, wr := ⟨true, true, true, true⟩ }

/-- The same engine after its GO. -/
def busy : Engine := { ready with busy := true, inflight := chromaWords }

/-- A system with the given engines and pending moves, every address in PLANE. -/
def system (engines : List Engine) (inputs : List Input) : State :=
  { State.reset with engines := engines, inputs := inputs }

theorem decode_chromaWords : decode chromaWords = .ok chromaInstr := by decide

theorem chroma_performable : Performable State.reset.plane (commandOf chromaInstr) :=
  performFault_eq_none.1 (by decide)

theorem witness_ReservedEncodingsAreRefused :
    (system [{ ready with staged := { chromaWords with ctrl := 0x001E140B#32 } }] [.write 0 .status 0#32]).outcome = .ok ∧
    ¬((0x001E140B#32).toNat / 2 ^ 3 % 2 ^ 5 = 0 ∧ (0x001E140B#32).toNat / 2 ^ 28 = 0) := by decide

/-- One state for each clause: a scheduled perform, a held GO, nothing pending. -/
theorem witness_StepPerformsTheLatchedCommand : busy.busy = true ∧ decode busy.inflight = .ok chromaInstr ∧
    (system [busy] [.perform 0]).engines[0]? = some busy ∧ (system [busy] [.write 0 .status 7#32]).outcome = .ok ∧
    (system [ready, busy] []).engines[1]? = some busy ∧ (∀ o < 1, (system [ready, busy] []).busyAt o = false) := by decide

theorem witness_PlacedWordIsPerformedNext :
    decodeTableWord 128 0x00000010_00003044_00000000_001E1403 = some chromaInstr := by decide

theorem witness_GoLatchesTheDescriptor :
    (system [ready, ready] [.write 1 .status 0#32]).engines[1]? = some ready ∧ ready.busy = false ∧
    decode ready.staged = .ok chromaInstr ∧ ready.wr = ⟨true, true, true, true⟩ ∧ inFlightFootprint ready = [] := by decide

theorem witness_HeldGoIsNeverLost :
    (system [busy] [.write 0 .status 0#32]).engines[0]? = some busy ∧ decode busy.inflight = .ok chromaInstr ∧
    Performable (system [busy] [.write 0 .status 0#32]).plane (commandOf chromaInstr) :=
  ⟨rfl, decode_chromaWords, chroma_performable⟩

/-- Each of the four registers, on a busy engine. -/
theorem witness_StagingWritesKeepTheCommandInFlight : ∀ r ∈ [RegIndex.cmdCtrl, .cmdTc0, .cmdAddr, .cmdStride],
    (system [busy] [.write 0 r 0xFFFFFFFF#32]).outcome = .ok ∧
    (system [busy] [.write 0 r 0xFFFFFFFF#32]).engines[0]? = some busy := by decide

/-- The four flags set on a busy engine whose staging registers hold no zeros, and the four writes. -/
theorem witness_DescriptorRegistersReadBack :
    (system [{ busy with staged := ⟨1#32, 2#32, 3#32, 0xFFFFFFFF#32⟩ }] [.read 0 .cmdStride]).engines[0]? =
      some { busy with staged := ⟨1#32, 2#32, 3#32, 0xFFFFFFFF#32⟩ } ∧
    busy.wr.ctrl = true ∧ busy.wr.tc0 = true ∧ busy.wr.addr = true ∧ busy.wr.stride = true ∧
    ∀ r ∈ [RegIndex.cmdCtrl, .cmdTc0, .cmdAddr, .cmdStride],
      r ≠ .status ∧ 0 < (system [Engine.reset] [.write 0 r 5#32, .read 0 r]).engines.length := by decide

theorem witness_StatusReadReturnsBusy : (system [busy, ready] [.read 0 .status]).engines[0]? = some busy ∧
    (system [busy, ready] [.read 1 .status]).engines[1]? = some ready := by decide

/-- Each disjunct alone: the other three registers written. -/
theorem witness_UnwrittenRegisterReadIsADraw :
    ({ ready with wr := ⟨false, true, true, true⟩ } : Engine).wr.ctrl = false ∧
    ({ ready with wr := ⟨true, false, true, true⟩ } : Engine).wr.tc0 = false ∧
    ({ ready with wr := ⟨true, true, false, true⟩ } : Engine).wr.addr = false ∧
    ({ ready with wr := ⟨true, true, true, false⟩ } : Engine).wr.stride = false := by decide

/-- One engine for each clause. -/
theorem witness_UnwrittenDescriptorFaults :
    decode { ready with wr := ⟨false, true, true, true⟩ }.staged = .ok chromaInstr ∧
    ({ ready with wr := ⟨false, true, true, true⟩ } : Engine).wr.ctrl = false ∧
    (({ ready with wr := ⟨true, false, true, true⟩ } : Engine).wr.ctrl = true ∧
      ({ ready with wr := ⟨true, false, true, true⟩ } : Engine).wr.tc0 = false) ∧
    (({ ready with wr := ⟨true, true, false, true⟩ } : Engine).wr.tc0 = true ∧
      ({ ready with wr := ⟨true, true, false, true⟩ } : Engine).wr.addr = false) ∧
    (({ ready with wr := ⟨true, true, true, false⟩ } : Engine).wr.addr = true ∧
      ({ ready with wr := ⟨true, true, true, false⟩ } : Engine).wr.stride = false) := by decide

theorem witness_IssuedCommandIsInFlight :
    (∀ eng ∈ (system [Engine.reset] (issue 0 chromaInstr ++ [.perform 0])).engines, eng.busy = false) ∧
    chromaInstr.wellFormed = true ∧
    (system [Engine.reset] (issue 0 chromaInstr ++ [.perform 0])).inputs = issue 0 chromaInstr ++ [.perform 0] := by decide

/-! ## Preconditions and results -/

/-- FT-10 (Line 0) and a command whose Line 1 is the first outside. -/
theorem witness_FirstInvalidAddressFaults :
    inPlane State.reset.plane (siteAddr (commandOf (.filterChromaIntraH ⟨0x10, 16, 20, 10⟩)) 0 .p2) = false ∧
    inPlane State.reset.plane (siteAddr (commandOf (.filterChromaV ⟨4294967293, 64, 20, 10⟩ okTc0)) 1 .p2) = false ∧
    (∀ j < 1, ∀ p ∈ kReq .chroma,
      inPlane State.reset.plane (siteAddr (commandOf (.filterChromaV ⟨4294967293, 64, 20, 10⟩ okTc0)) j p) = true) ∧
    (∀ p ∈ kReq .chroma, ¬p.offset < Pos.p2.offset) := by decide

/-- FT-5. -/
theorem witness_FirstCoincidingPairFaults :
    siteAddr (commandOf (.filterChromaV ⟨0x1000, 5, 20, 10⟩ okTc0)) 0 .q2 =
      siteAddr (commandOf (.filterChromaV ⟨0x1000, 5, 20, 10⟩ okTc0)) 1 .p2 ∧
    firstOverlap (footprint (commandOf (.filterChromaV ⟨0x1000, 5, 20, 10⟩ okTc0))) =
      some (⟨0, .q2, 0x1002⟩, ⟨1, .p2, 0x1002⟩) ∧
    firstInvalid State.reset.plane (footprint (commandOf (.filterChromaV ⟨0x1000, 5, 20, 10⟩ okTc0))) = none := by decide

/-- Both sides of the least stride of each kind and form. -/
theorem witness_StrideDecidesOverlap :
    ∀ x ∈ [(8, Instr.filterLumaV ⟨0x1000, 8, 0, 0⟩ okTc0), (8, .filterLumaV ⟨0x1000, -7, 0, 0⟩ okTc0),
      (16, .filterLumaH ⟨0x1000, -16, 0, 0⟩ okTc0), (16, .filterLumaH ⟨0x1000, 15, 0, 0⟩ okTc0),
      (8, .filterLumaIntraV ⟨0x1000, -8, 0, 0⟩), (8, .filterLumaIntraV ⟨0x1000, 0, 0, 0⟩),
      (16, .filterLumaIntraH ⟨0x1000, 16, 0, 0⟩), (16, .filterLumaIntraH ⟨0x1000, -15, 0, 0⟩),
      (6, .filterChromaV ⟨0x1000, 6, 0, 0⟩ okTc0), (6, .filterChromaV ⟨0x1000, 5, 0, 0⟩ okTc0),
      (8, .filterChromaH ⟨0x1000, -8, 0, 0⟩ okTc0), (8, .filterChromaH ⟨0x1000, 7, 0, 0⟩ okTc0),
      (6, .filterChromaIntraV ⟨0x1000, -6, 0, 0⟩), (6, .filterChromaIntraV ⟨0x1000, 0, 0, 0⟩),
      (8, .filterChromaIntraH ⟨0x1000, 8, 0, 0⟩), (8, .filterChromaIntraH ⟨0x1000, -7, 0, 0⟩)],
      firstInvalid State.reset.plane (footprint (commandOf x.2)) = none ∧
        ((x.1 : Int) ≤ |x.2.operands.stride| ∨ |x.2.operands.stride| < (x.1 : Int)) := by decide

theorem plane_all {a : Int} (h0 : 0 ≤ a) (h1 : a < 4294967296) : inPlane State.reset.plane a = true :=
  inPlane_iff.2 ⟨⟨h0, h1⟩, ⟨0, Config.addressCount⟩, List.mem_cons_self, by simpa using h0,
    by simpa [Config.addressCount] using h1⟩

/-- The preconditions as the result statements say them, for the vertical luma forms at the least stride. -/
theorem witness_luma_rows : Ref.EdgeOk State.reset.plane (Ref.rowAddr ⟨0x1000, 8, 20, 10⟩) 16 (-4) 3 := by
  constructor
  · intro j hj k h1 h2
    apply plane_all <;> simp only [Ref.rowAddr] <;> omega
  · intro j hj k h1 h2 j' hj' k' h1' h2' he
    simp only [Ref.rowAddr] at he
    omega

theorem witness_luma_columns : Ref.EdgeOk State.reset.plane (Ref.colAddr ⟨0x1000, -16, 20, 10⟩) 16 (-4) 3 := by
  constructor
  · intro j hj k h1 h2
    apply plane_all <;> simp only [Ref.colAddr] <;> omega
  · intro j hj k h1 h2 j' hj' k' h1' h2' he
    simp only [Ref.colAddr] at he
    omega

theorem witness_chroma_rows : Ref.EdgeOk State.reset.plane (Ref.rowAddr ⟨0x1000, -6, 20, 10⟩) 8 (-3) 2 := by
  constructor
  · intro j hj k h1 h2
    apply plane_all <;> simp only [Ref.rowAddr] <;> omega
  · intro j hj k h1 h2 j' hj' k' h1' h2' he
    simp only [Ref.rowAddr] at he
    omega

theorem witness_chroma_columns : Ref.EdgeOk State.reset.plane (Ref.colAddr ⟨0x1000, 8, 20, 10⟩) 8 (-3) 2 := by
  constructor
  · intro j hj k h1 h2
    apply plane_all <;> simp only [Ref.colAddr] <;> omega
  · intro j hj k h1 h2 j' hj' k' h1' h2' he
    simp only [Ref.colAddr] at he
    omega

/-- FilterLumaResult and FilterChromaResult: their other hypothesis, with the sentinel among the entries. -/
theorem witness_tc0_wellFormed : okTc0.wellFormed = true := by decide

/-- Statements about a command that completes (`exec i s = .next t`), whichever the state. -/
theorem witness_command_completes (s : State) (h : s.plane = State.reset.plane) :
    ∃ t, exec chromaInstr s = .next t := by
  rw [exec_eq_perform, perform_of_performable (by rw [h]; exact chroma_performable)]
  exact ⟨_, rfl⟩

/-- The frame's last clause and TransientRegistersAreLoaded: an engine at the active index. -/
theorem witness_active_engine : (system [busy] []).engines[(system [busy] []).active]? = some busy := by decide

/-- Both disjuncts. -/
theorem witness_DisabledEdgeChangesNothing : ∀ i ∈ [Instr.filterChromaIntraV ⟨0x3044, 16, 0, 30⟩,
    .filterChromaIntraV ⟨0x3044, 16, 20, 0⟩], (i.operands.alpha = 0 ∨ i.operands.beta = 0) ∧
      performFault State.reset.plane (commandOf i) = none := by decide

/-- The last Line of a sentinel group and the first of the next. -/
theorem witness_SentinelGroupKeepsItsLines :
    (Instr.filterChromaV ⟨0x3044, 16, 20, 10⟩ ⟨3, -1, 3, 3⟩).tc0 = some ⟨3, -1, 3, 3⟩ ∧
    Ref.entry ⟨3, -1, 3, 3⟩ (groupOf .chroma 3) = -1 ∧ Ref.entry ⟨3, -1, 3, 3⟩ (groupOf .chroma 4) ≠ -1 ∧
    performFault State.reset.plane (commandOf (.filterChromaV ⟨0x3044, 16, 20, 10⟩ ⟨3, -1, 3, 3⟩)) = none := by decide

theorem witness_ChromaZeroTc0ActsAsTheSentinel :
    (∀ g < 4, Ref.entry ⟨3, 0, 0, -1⟩ g = Ref.entry ⟨3, -1, 0, -1⟩ g ∨
      (Ref.entry ⟨3, 0, 0, -1⟩ g = 0 ∧ Ref.entry ⟨3, -1, 0, -1⟩ g = -1)) ∧
    performFault State.reset.plane ⟨.chroma ⟨3, 0, 0, -1⟩, .vertical, ⟨0x3044, 16, 20, 10⟩⟩ = none ∧
    performFault State.reset.plane ⟨.chroma ⟨3, 0, 0, -1⟩, .horizontal, ⟨0x3044, 16, 20, 10⟩⟩ = none := by decide

/-- A Line off the tie with a difference across the edge; the tc0 list is `okTc0`. (The second clause has no hypothesis.) -/
theorem witness_NormalFiltersMirrorOffTheTie :
    (((100 : Int) - 98) * 4 + ((96 : Int) - 97)) % 8 ≠ 4 ∧ okTc0.wellFormed = true := by decide

theorem witness_SmoothLinesAreUnchanged :
    ∀ t, (⟨.luma okTc0, .vertical, ⟨0, 64, 255, 255⟩⟩ : Command).filter = .luma t ∨
      (⟨.luma okTc0, .vertical, ⟨0, 64, 255, 255⟩⟩ : Command).filter = .chroma t → t.wellFormed = true := by
  rintro t (h | h) <;> cases h
  decide

/-! ## Independence -/

theorem witness_NoRetainedStateIsRead : (system [busy] []).mem = (system [ready, busy] [.perform 0]).mem ∧
    (system [busy] []).plane = (system [ready, busy] [.perform 0]).plane := by decide

theorem witness_StoreOrderIsUnobservable (s : State) :
    (commandStores (commandOf chromaInstr) s.mem s.activeEngine).reverse.Perm
      (commandStores (commandOf chromaInstr) s.mem s.activeEngine) := List.reverse_perm _

/-- At the least pitch. -/
theorem witness_TranspositionIsUnobservable (s : State) (h : s.plane = State.reset.plane) :
    (Instr.filterChromaIntraH ⟨0x2008, -64, 40, 6⟩).dir = .horizontal ∧ 8 ≤ 8 ∧
      ∃ t, exec (.filterChromaIntraH ⟨0x2008, -64, 40, 6⟩) s = .next t := by
  refine ⟨rfl, Nat.le_refl 8, ?_⟩
  rw [exec_eq_perform, perform_of_performable (by rw [h]; exact performFault_eq_none.1 (by decide))]
  exact ⟨_, rfl⟩

/-! ## Host and engine -/

theorem witness_HostSeesCommandWrites :
    (system [ready, busy] [.perform 1, .planeRead 0x3043]).engines[1]? = some busy ∧ busy.busy = true ∧
    decode busy.inflight = .ok chromaInstr ∧
    Performable (system [ready, busy] [.perform 1, .planeRead 0x3043]).plane (commandOf chromaInstr) ∧
    ready.busy = false ∧ inPlane (system [ready, busy] [.perform 1, .planeRead 0x3043]).plane (0x3043 : Int) = true :=
  ⟨rfl, rfl, decode_chromaWords, chroma_performable, rfl, by decide⟩

theorem witness_HostAccessToFootprintIsRefused : busy ∈ (system [busy] [.planeRead 0x3041]).engines ∧
    (⟨0, .p2, 0x3041⟩ : Site) ∈ footprint (commandOf chromaInstr) ∧
    inPlane (system [busy] [.planeRead 0x3041]).plane (0x3041 : Int) = true ∧
    (system [busy] [.planeWrite 0x3041 9#8]).outcome = .ok := by decide

theorem witness_SharedFootprintGoIsRefused :
    (system [ready, busy] [.write 0 .status 0#32]).engines[0]? = some ready ∧ decode ready.staged = .ok chromaInstr ∧
    ready.wr = ⟨true, true, true, true⟩ ∧ (system [ready, busy] [.write 0 .status 0#32]).engines[1]? = some busy ∧
    busy.busy = true ∧ (⟨0, .p2, 0x3041⟩ : Site) ∈ footprint (commandOf chromaInstr) := by decide

theorem witness_ResetAbandonsTheCommand :
    (system [busy] [.reset 0]).engines[0]? = some busy ∧ decode busy.inflight = .ok chromaInstr ∧
    Performable (system [busy] [.reset 0]).plane (commandOf chromaInstr) ∧
    (commandStores (commandOf chromaInstr) (system [busy] [.reset 0]).mem busy)[0]? = some (0x3043, 0#8) ∧
    (∀ j < 8, ∀ p ∈ kWrite .chromaIntra, siteAddr (commandOf chromaInstr) j p ≠ ((0x3045 : Nat) : Int)) :=
  ⟨rfl, decode_chromaWords, chroma_performable, by decide, by decide⟩

theorem witness_ResetOfAnIdleEngineKeepsThePlane :
    (system [busy, ready] [.reset 1]).engines[1]? = some ready ∧ ready.busy = false ∧
    (system [busy, ready] [.reset 1]).outcome = .ok := by decide

/-! ## The whole machine -/

theorem getD_nil (l : List Engine) (h : ∀ eng ∈ l, inFlightFootprint eng = []) (e : Nat) :
    inFlightFootprint (l.getD e Engine.reset) = [] := by
  cases h' : l[e]? with
  | none => simp [List.getD, h', inFlightFootprint, inFlight, Engine.reset]
  | some eng => simpa [List.getD, h'] using h eng (List.mem_of_getElem? h')

/-- A state with a command in flight that meets the invariant. -/
theorem busy_inv (inputs : List Input) : Inv (system [busy, ready] inputs) := by
  refine ⟨rfl, rfl, ?_, ?_⟩
  · show ∀ eng ∈ [busy, ready], engineOk eng = true
    decide
  intro e o hne
  have hr : ∀ n, n ≠ 0 → inFlightFootprint (([busy, ready] : List Engine).getD n Engine.reset) = [] := by
    intro n hn
    obtain ⟨m, rfl⟩ := Nat.exists_eq_succ_of_ne_zero hn
    exact getD_nil [ready] (by decide) m
  show sharesAddress (inFlightFootprint (([busy, ready] : List Engine).getD e Engine.reset))
    (inFlightFootprint (([busy, ready] : List Engine).getD o Engine.reset)) = false
  by_cases h : e = 0
  · rw [hr o (by omega)]
    simp [sharesAddress]
  · rw [hr e h]
    rfl

theorem witness_StepKeepsTheSystemInvariant : Inv (system [busy, ready] [.perform 0]) ∧
    ∃ t, step (system [busy, ready] [.perform 0]) = .next t := by
  refine ⟨busy_inv _, ?_⟩
  obtain ⟨t, ht⟩ := witness_command_completes { system [busy, ready] [] with active := 0 } rfl
  refine ⟨t, ?_⟩
  rw [step_of_ok rfl, nextTurn_perform rfl]
  show engineTurn 0 (system [busy, ready] []) = .next t
  rw [engineTurn_busy (eng := busy) rfl rfl decode_chromaWords, ht]

/-- OpenParametersNeverChange and NoStepWritesOutsideThePlane: a step, and the lowest address outside the space. -/
theorem witness_NoStepWritesOutsideThePlane : (∃ t, step (system [busy, ready] [.perform 0]) = .next t) ∧
    inPlane (system [busy, ready] [.perform 0]).plane ((4294967296 : Nat) : Int) = false :=
  ⟨witness_StepKeepsTheSystemInvariant.2, by decide⟩

/-- PR-5: a GO after reset faults; a reserved descriptor is refused. -/
theorem witness_OutcomeMarkIsSticky :
    step (system [Engine.reset] [.write 0 .status 0#32]) = .fault (.unwrittenDescriptor 0) ∧
    step (system [{ ready with staged := { chromaWords with ctrl := 0x001E140B#32 } }] [.write 0 .status 0#32]) =
      .refused .reservedEncoding := ⟨rfl, rfl⟩

theorem witness_IdleSystemWaits : (system [ready, Engine.reset] []).outcome = .ok ∧
    ∀ eng ∈ (system [ready, Engine.reset] []).engines, eng.busy = false := by decide

theorem witness_EveryCommandInFlightCompletes : Inv (system [busy, ready] []) ∧
    ∀ eng ∈ (system [busy, ready] []).engines, ∀ c, inFlight eng = some c →
      Performable (system [busy, ready] []).plane c := by
  refine ⟨busy_inv _, fun eng h c hc => ?_⟩
  rcases List.mem_cons.1 h with rfl | h
  · rw [inFlight_of_busy rfl decode_chromaWords] at hc
    cases hc
    exact chroma_performable
  · rw [List.mem_singleton.1 h, inFlight_of_idle rfl] at hc
    cases hc

/-! ## Cause codes, and the host's own accesses -/

/-- One outcome for each clause: codes 1, 2 (index 0 and index 3), 3 (FT-10) and 4 (a chroma edge of stride 0), and a step
that goes on. -/
theorem witness_MarksCarryTheCauseCodes :
    step (system [{ ready with staged := { chromaWords with ctrl := 0x001E140B#32 } }] [.write 0 .status 0#32]) =
      .refused .reservedEncoding ∧
    step (system [Engine.reset] [.write 0 .status 0#32]) = .fault (.unwrittenDescriptor 0) ∧
    step (system [{ ready with wr := ⟨true, true, true, false⟩ }] [.write 0 .status 0#32]) =
      .fault (.unwrittenDescriptor 3) ∧
    step (State.reset.withFetchWord 128 0x00000010_00000010_00000000_000A1407) = .fault (.outOfPlane (-32)) ∧
    step (State.reset.withFetchWord 128 0x00000000_00001000_00000000_000A1403) =
      .fault (.footprintOverlap 0 (-3) 1 (-3)) ∧
    step State.reset = .next State.reset := ⟨rfl, rfl, rfl, rfl, rfl, rfl⟩

/-- The codes of R256, each with its payload, and none for a refusal of the model's own. -/
theorem test_cause_codes : causeCode (.refused .reservedEncoding) = some 1 ∧
    causeCode (.fault (.unwrittenDescriptor 3)) = some 2 ∧ causeCode (.fault (.outOfPlane 0x2FE0)) = some 3 ∧
    causeCode (.fault (.footprintOverlap 0 3 1 (-4))) = some 4 ∧
    causePayload (.fault (.footprintOverlap 0 3 1 (-4))) = [0, 3, 1, -4] ∧
    causeCode (.refused (.hostTouchesFootprint 7)) = none ∧ causeCode .ok = none := by decide

/-- The first plane address after the footprint's first row, and the last address of the space. -/
theorem witness_HostAccessesReachThePlane : ∀ a ∈ [0x3047, 4294967295],
    inPlane (system [busy, ready] [.planeWrite a 9#8]).plane ((a : Nat) : Int) = true ∧
    (∀ eng ∈ (system [busy, ready] [.planeRead a]).engines, ∀ x ∈ inFlightFootprint eng, x ≠ ((a : Nat) : Int)) := by decide

/-- The written sample is p0 of Line 0 of the command. -/
theorem witness_CommandSeesHostWrites :
    (system [Engine.reset, ready] [.planeWrite 0x3043 9#8, .write 1 .status 0#32, .perform 1]).engines[1]? = some ready ∧
    (∀ other ∈ [Engine.reset, ready], other.busy = false) ∧ decode ready.staged = .ok chromaInstr ∧
    ready.wr = ⟨true, true, true, true⟩ ∧ inPlane State.reset.plane (0x3043 : Int) = true ∧
    Performable State.reset.plane (commandOf chromaInstr) ∧
    memRead (memWrite State.reset.mem 0x3043 9#8) 0x3043 = 9#8 ∧
    (∀ b, b ≠ 0x3043 → memRead (memWrite State.reset.mem 0x3043 9#8) b = memRead State.reset.mem b) :=
  ⟨rfl, by decide, decode_chromaWords, rfl, by decide, chroma_performable, memRead_memWrite_same _ _ _,
    fun _ hb => memRead_memWrite_ne _ _ hb.symm⟩

end Sys2Proof.Tests
end

section
/-! The OPEN parameters of a run (00_scope R10): each effect a step can have keeps PLANE and the number of engines. -/

namespace Sys2Proof.Machine

@[simp] theorem advanced_plane (s : State) : (advanced s).plane = s.plane := rfl
@[simp] theorem advanced_engines (s : State) : (advanced s).engines = s.engines := rfl

/-- No effect redefines the plane: the state updates name samples, engines, `readData` and draws only. -/
theorem Effect.plane_eq {s t : State} (h : Effect s t) : t.plane = s.plane := by
  cases h with
  | nothing h => rw [h]
  | performed _ _ _ _ _ _ _ h => rw [h, completed_plane]
  | staged _ _ _ _ _ h => rw [h, setEngine_plane]
  | latched _ _ _ _ _ _ _ _ h => rw [h, setEngine_plane]
  | read _ _ h => rw [h]
  | stored _ _ _ h => rw [h]
  | resetIdle _ _ _ h => rw [h, setEngine_plane]
  | resetBusy _ _ _ _ _ _ h => rw [h, abandoned_plane]

/-- Every effect on the engines is a `List.set` at one index, which keeps the length. -/
theorem Effect.engines_length_eq {s t : State} (h : Effect s t) : t.engines.length = s.engines.length := by
  cases h with
  | nothing h => rw [h]
  | performed _ _ _ _ _ _ _ h => rw [h, completed_engines, List.length_set]
  | staged _ _ _ _ _ h => rw [h, setEngine_engines, List.length_set]
  | latched _ _ _ _ _ _ _ _ h => rw [h, setEngine_engines, List.length_set]
  | read _ _ h => rw [h]
  | stored _ _ _ h => rw [h]
  | resetIdle _ _ _ h => rw [h, setEngine_engines, List.length_set]
  | resetBusy _ _ _ _ _ _ h => rw [h, abandoned_engines, List.length_set]

/-- Settles O52, by the inversion of a step: whatever its effect, it keeps both OPEN parameters. -/
theorem openParametersNeverChange : Obligations.OpenParametersNeverChange := by
  intro s t hstep
  obtain ⟨-, heffect⟩ := step_effect hstep
  exact ⟨by rw [heffect.plane_eq, advanced_plane], by rw [heffect.engines_length_eq, advanced_engines]⟩

end Sys2Proof.Machine
end

section
/-! The host's moves (10_state R33 to R39, R46; 20_memory R72, R73): what a step answers when each is first in line, said
once per move. -/

namespace Sys2Proof.Machine

/-! ## The step of a turn -/

/-- A step of an unmarked system takes the next turn with the moves after it pending. -/
theorem step_of_nextTurn {s : State} {turn : Turn} {rest : List Input} (ho : s.outcome = .ok)
    (h : nextTurn s = (turn, rest)) : step s = takeTurn turn { s with inputs := rest } := by
  rw [step_of_ok ho, advanced, h]

theorem step_of_fault_mark {s : State} {r : Fault} (h : s.outcome = .fault r) : step s = .fault r := by
  unfold step systemStep
  rw [h]

theorem step_of_refused_mark {s : State} {r : Refusal} (h : s.outcome = .refused r) : step s = .refused r := by
  unfold step systemStep
  rw [h]

theorem run_succ_of_next {k : Nat} {s t : State} (h : step s = .next t) :
    Host.Core.run core (k + 1) s = Host.Core.run core k t := by
  have hcore : core.step s = .next t := h
  simp only [Host.Core.run, hcore]

theorem run_one_of_next {s t : State} (h : step s = .next t) : Host.Core.run core 1 s = .next t :=
  run_succ_of_next (k := 0) h

/-! ## Engines after an update -/

theorem lt_length_of_getElem? {s : State} {e : Nat} {eng : Engine} (he : s.engines[e]? = some eng) :
    e < s.engines.length :=
  (List.getElem?_eq_some_iff.1 he).1

theorem setEngine_getElem?_self {s : State} {e : Nat} {old : Engine} (eng : Engine) (he : s.engines[e]? = some old) :
    (s.setEngine e eng).engines[e]? = some eng :=
  List.getElem?_set_self (lt_length_of_getElem? he)

theorem setEngine_getElem?_ne (s : State) {e o : Nat} (eng : Engine) (ho : o ≠ e) :
    (s.setEngine e eng).engines[o]? = s.engines[o]? :=
  List.getElem?_set_ne ho.symm

theorem activeEngine_of_getElem? {s : State} {eng : Engine} (he : s.engines[s.active]? = some eng) :
    s.activeEngine = eng := by
  simp [State.activeEngine, List.getD, he]

theorem completed_getElem?_active {c : Command} {s : State} {eng : Engine} (he : s.engines[s.active]? = some eng) :
    (completed c s).engines[s.active]? = some (completedEngine c s.mem s.draws eng) := by
  rw [completed_engines, activeEngine_of_getElem? he, List.getElem?_set_self (lt_length_of_getElem? he)]

theorem inFlightFootprint_of_idle {eng : Engine} (hb : eng.busy = false) : inFlightFootprint eng = [] := by
  rw [inFlightFootprint, inFlight_of_idle hb]

/-! ## Register writes and reads -/

/-- R34 to R37: a write to a descriptor register is staged. -/
theorem hostWrite_of_ne_status {s : State} {e : Nat} {eng : Engine} {r : RegIndex} (v : Word) (hr : r ≠ .status)
    (he : s.engines[e]? = some eng) : hostWrite e r v s = .next (s.setEngine e (stageWrite eng r v)) := by
  unfold hostWrite
  rw [he]
  cases r with
  | status => exact absurd rfl hr
  | _ => rfl

theorem step_stagingWrite {s : State} {e : Nat} {r : RegIndex} {v : Word} {rest : List Input} {eng : Engine}
    (ho : s.outcome = .ok) (hr : r ≠ .status) (hi : s.inputs = .write e r v :: rest) (he : s.engines[e]? = some eng) :
    step s = .next (State.setEngine { s with inputs := rest } e (stageWrite eng r v)) := by
  rw [step_of_nextTurn ho (nextTurn_write hr hi)]
  exact hostWrite_of_ne_status v hr he

/-- What a written register reads as right after the write. -/
theorem regRead_stageWrite (eng : Engine) {r : RegIndex} (v : Word) (hr : r ≠ .status) :
    regRead (stageWrite eng r v) r = some v := by
  cases r with
  | status => exact absurd rfl hr
  | _ => rfl

theorem regRead_of_unwritten {eng : Engine} {r : RegIndex}
    (h : (r = .cmdCtrl ∧ eng.wr.ctrl = false) ∨ (r = .cmdTc0 ∧ eng.wr.tc0 = false) ∨
      (r = .cmdAddr ∧ eng.wr.addr = false) ∨ (r = .cmdStride ∧ eng.wr.stride = false)) : regRead eng r = none := by
  rcases h with ⟨rfl, hw⟩ | ⟨rfl, hw⟩ | ⟨rfl, hw⟩ | ⟨rfl, hw⟩ <;> simp [regRead, hw]

theorem step_read {s : State} {e : Nat} {r : RegIndex} {rest : List Input} {eng : Engine} {v : Word}
    (ho : s.outcome = .ok) (hi : s.inputs = .read e r :: rest) (he : s.engines[e]? = some eng)
    (hv : regRead eng r = some v) : step s = .next { s with inputs := rest, readData := v } := by
  rw [step_of_nextTurn ho (nextTurn_read hi)]
  show hostRead e r { s with inputs := rest } = _
  unfold hostRead
  simp only [he, hv]

theorem step_read_unwritten {s : State} {e : Nat} {r : RegIndex} {rest : List Input} {eng : Engine}
    (ho : s.outcome = .ok) (hi : s.inputs = .read e r :: rest) (he : s.engines[e]? = some eng)
    (hv : regRead eng r = none) :
    step s = .next { s with inputs := rest, readData := Config.freeWord s.draws, draws := s.draws + 1 } := by
  rw [step_of_nextTurn ho (nextTurn_read hi)]
  show hostRead e r { s with inputs := rest } = _
  unfold hostRead
  simp only [he, hv]

/-! ## GO -/

theorem sharesAddress_eq_false {l r : List Int} : sharesAddress l r = false ↔ ∀ a ∈ l, ∀ b ∈ r, a ≠ b := by
  simp only [sharesAddress, List.any_eq_false, Bool.not_eq_true, decide_eq_false_iff_not, ne_eq]

/-- R268: no other engine's footprint in flight meets the addresses. -/
theorem sharingEngine_eq_none {s : State} {e : Nat} {fp : List Int} : sharingEngine s e fp = none ↔
    ∀ o other, o ≠ e → s.engines[o]? = some other → ∀ a ∈ inFlightFootprint other, ∀ b ∈ fp, a ≠ b := by
  unfold sharingEngine
  rw [List.find?_eq_none]
  constructor
  · intro h o other hoe hother
    have hfree := h o (List.mem_range.2 (lt_length_of_getElem? hother))
    rw [← sharesAddress_eq_false]
    simpa [hoe, hother, List.getD] using hfree
  · intro h o ho
    have hother := List.getElem?_eq_getElem (List.mem_range.1 ho)
    by_cases hoe : o = e
    · simp [hoe]
    · simpa [hoe, hother, List.getD] using sharesAddress_eq_false.2 (h o _ hoe hother)

/-- R38: a GO on an idle engine is taken at once. -/
theorem step_go_idle {s : State} {e : Nat} {v : Word} {rest : List Input} {eng : Engine} (ho : s.outcome = .ok)
    (hi : s.inputs = .write e .status v :: rest) (he : s.engines[e]? = some eng) (hb : eng.busy = false) :
    step s = go e eng { s with inputs := rest } := by
  rw [step_of_nextTurn ho (nextTurn_go_idle hi ((busyAt_of_getElem? he).trans hb))]
  show hostWrite e .status v { s with inputs := rest } = _
  unfold hostWrite
  simp only [he]

/-- R38, R257: a GO that passes its three checks latches the descriptor. -/
theorem go_of_checks {s : State} {e : Nat} {eng : Engine} {i : Instr} (hd : decode eng.staged = .ok i)
    (hw : firstUnwritten eng.wr = none) (hs : sharingEngine s e ((footprint (commandOf i)).map Site.addr) = none) :
    go e eng s = .next (s.setEngine e (latched eng)) := by
  unfold go
  simp only [hd, hw, hs]

/-- R38: a GO on a busy engine makes that engine perform, and stays pending. -/
theorem step_go_busy {s : State} {e : Nat} {v : Word} {rest : List Input} {eng : Engine} {i : Instr}
    (ho : s.outcome = .ok) (hi : s.inputs = .write e .status v :: rest) (he : s.engines[e]? = some eng)
    (hb : eng.busy = true) (hd : decode eng.inflight = .ok i) : step s = exec i { s with active := e } := by
  rw [step_of_nextTurn ho (nextTurn_go_busy hi ((busyAt_of_getElem? he).trans hb))]
  exact engineTurn_busy he hb hd

/-! ## Reset and plane accesses -/

/-- R46: reset of an idle engine resets that engine alone. -/
theorem step_reset_idle {s : State} {e : Nat} {rest : List Input} {eng : Engine} (ho : s.outcome = .ok)
    (hi : s.inputs = .reset e :: rest) (he : s.engines[e]? = some eng) (hb : eng.busy = false) :
    step s = .next (State.setEngine { s with inputs := rest } e Engine.reset) := by
  rw [step_of_nextTurn ho (nextTurn_reset hi)]
  show hostReset e { s with inputs := rest } = _
  unfold hostReset
  simp only [he, inFlight_of_idle hb]

/-- R72: a host access to an address of PLANE outside every footprint in flight is not refused. -/
theorem hostAccessRefusal_of_free {s : State} {a : Nat} (ha : inPlane s.plane (a : Int) = true)
    (hfree : ∀ eng ∈ s.engines, ∀ x ∈ inFlightFootprint eng, x ≠ (a : Int)) : hostAccessRefusal s a = none := by
  have htouch : inFlightTouches s a = false := by
    simpa only [inFlightTouches, List.any_eq_false, List.any_eq_true, decide_eq_true_eq, not_exists, not_and]
      using hfree
  simp [hostAccessRefusal, ha, htouch]

theorem step_planeWrite {s : State} {a : Nat} {v : Byte} {rest : List Input} (ho : s.outcome = .ok)
    (hi : s.inputs = .planeWrite a v :: rest) (hn : hostAccessRefusal { s with inputs := rest } a = none) :
    step s = .next { s with inputs := rest, mem := memWrite s.mem a v } := by
  rw [step_of_nextTurn ho (nextTurn_planeWrite hi)]
  show hostPlaneWrite a v { s with inputs := rest } = _
  unfold hostPlaneWrite
  rw [hn]

theorem step_planeRead {s : State} {a : Nat} {rest : List Input} (ho : s.outcome = .ok)
    (hi : s.inputs = .planeRead a :: rest) (hn : hostAccessRefusal { s with inputs := rest } a = none) :
    step s = .next { s with inputs := rest, readData := (memRead s.mem a).setWidth 32 } := by
  rw [step_of_nextTurn ho (nextTurn_planeRead hi)]
  show hostPlaneRead a { s with inputs := rest } = _
  unfold hostPlaneRead
  rw [hn]

end Sys2Proof.Machine
end

section
/-! The statements about the registers, reset, the host's own plane accesses and the outcome mark (10_state), from the
rules of the host's moves. -/

namespace Sys2Proof.Machine

/-- Settles O14: the descriptor decodes, every flag is set and no footprint is shared, so the GO's three checks pass. -/
theorem goLatchesTheDescriptor : Obligations.GoLatchesTheDescriptor := by
  intro s e v rest eng i ho hi he hb hd hw hfree
  have hs : sharingEngine { s with inputs := rest } e ((footprint (commandOf i)).map Site.addr) = none := by
    refine sharingEngine_eq_none.2 fun o other hoe hother a ha b hbm => ?_
    obtain ⟨x, hx, rfl⟩ := List.mem_map.1 hbm
    exact (hfree o other hoe hother a ha x hx).symm
  rw [step_go_idle ho hi he hb, go_of_checks hd (by rw [hw]; rfl) hs]
  rfl

/-- Settles O15: the engine performs, and the perform step keeps the pending moves and the interface registers. -/
theorem heldGoIsNeverLost : Obligations.HeldGoIsNeverLost := by
  intro s e v rest eng i ho hi he hb hd hp
  refine ⟨completed (commandOf i) { s with active := e }, ?_, hi,
    completedEngine (commandOf i) s.mem s.draws eng, completed_getElem?_active (s := { s with active := e }) he,
    rfl, rfl, rfl⟩
  rw [step_go_busy ho hi he hb hd, exec_eq_perform]
  exact perform_of_performable hp

/-- Settles O16: each of the four writes is the staging write of its register. -/
theorem stagingWritesKeepTheCommandInFlight : Obligations.StagingWritesKeepTheCommandInFlight := by
  intro s e v rest eng ho he
  exact ⟨fun hi => step_stagingWrite (r := .cmdCtrl) ho nofun hi he,
    fun hi => step_stagingWrite (r := .cmdTc0) ho nofun hi he,
    fun hi => step_stagingWrite (r := .cmdAddr) ho nofun hi he,
    fun hi => step_stagingWrite (r := .cmdStride) ho nofun hi he⟩

/-- Settles O17: a written register reads as its staging register, and a staging write leaves the value written there. -/
theorem descriptorRegistersReadBack : Obligations.DescriptorRegistersReadBack := by
  constructor
  · intro s e rest eng ho he
    exact ⟨fun hw hi => step_read ho hi he (if_pos hw), fun hw hi => step_read ho hi he (if_pos hw),
      fun hw hi => step_read ho hi he (if_pos hw), fun hw hi => step_read ho hi he (if_pos hw)⟩
  · intro s e r v rest ho hlen hr hi
    have he : s.engines[e]? = some s.engines[e] := List.getElem?_eq_getElem hlen
    have hwrite := step_stagingWrite ho hr hi he
    have hread := step_read (s := State.setEngine { s with inputs := .read e r :: rest } e (stageWrite s.engines[e] r v))
      ho rfl (setEngine_getElem?_self _ he) (regRead_stageWrite s.engines[e] v hr)
    exact ⟨_, (run_succ_of_next hwrite).trans (run_one_of_next hread), rfl, rfl, rfl⟩

/-- Settles O40: the preconditions read PLANE alone, and the stores do not depend on the engine that performs. -/
theorem noRetainedStateIsRead : Obligations.NoRetainedStateIsRead := by
  intro i s s' t hmem hplane hexec
  rw [exec_eq_perform] at hexec
  obtain ⟨hp, rfl⟩ := perform_next hexec
  refine ⟨completed (commandOf i) s', ?_, ?_⟩
  · rw [exec_eq_perform, perform_of_performable (by rwa [hplane])]
  · rw [completed_mem, completed_mem, hmem, commandStores_engine _ _ s'.activeEngine s.activeEngine]

/-- Settles O48: the step sets that engine alone to `Engine.reset`. -/
theorem resetOfAnIdleEngineKeepsThePlane : Obligations.ResetOfAnIdleEngineKeepsThePlane := by
  intro s e rest eng ho hi he hb
  exact ⟨_, step_reset_idle ho hi he hb, rfl, rfl, ho, fun o hoe => setEngine_getElem?_ne _ _ hoe,
    Engine.reset, setEngine_getElem?_self _ he, rfl, rfl⟩

/-- Settles O58: outside the footprints in flight neither access is refused. -/
theorem hostAccessesReachThePlane : Obligations.HostAccessesReachThePlane := by
  intro s a v rest ho ha hfree
  have hn : hostAccessRefusal { s with inputs := rest } a = none := hostAccessRefusal_of_free ha hfree
  exact ⟨fun hi => ⟨memWrite s.mem a v, step_planeWrite ho hi hn, memRead_memWrite_same _ _ _,
    fun b hb => memRead_memWrite_ne _ _ hb.symm⟩, fun hi => step_planeRead ho hi hn⟩

/-- Settles O18: `STATUS` always reads as BUSY. -/
theorem statusReadReturnsBusy : Obligations.StatusReadReturnsBusy := by
  intro s e rest eng ho hi he
  exact step_read ho hi he rfl

/-- Settles O19: an unwritten register has no value to return, so the read draws one. -/
theorem unwrittenRegisterReadIsADraw : Obligations.UnwrittenRegisterReadIsADraw := by
  intro s e r rest eng ho hi he hw
  exact step_read_unwritten ho hi he (regRead_of_unwritten hw)

/-- Every engine of a system after reset is `Engine.reset`. -/
theorem eq_reset_of_mem_reset_engines {eng : Engine} (h : eng ∈ State.reset.engines) : eng = Engine.reset :=
  List.eq_of_mem_replicate h

theorem reset_engines_getD (e : Nat) : State.reset.engines.getD e Engine.reset = Engine.reset :=
  List.getD_eq_getElem?_getD.trans (List.getElem?_getD_replicate_default_eq Engine.reset 1 e)

/-- Settles O49: no move is pending and no engine is busy, so the turn is the idle one. -/
theorem resetStateWaits : Obligations.ResetStateWaits := by
  refine ⟨fun eng heng => ?_, rfl, ?_⟩
  · rw [eq_reset_of_mem_reset_engines heng]
    exact ⟨rfl, rfl⟩
  · rw [step_of_nextTurn rfl (nextTurn_empty_idle rfl rfl)]
    rfl

/-- Settles O51: an idle engine meets its clause, and has no footprint to share. -/
theorem resetMeetsTheSystemInvariant : Obligations.ResetMeetsTheSystemInvariant where
  outcome := rfl
  mem := rfl
  engines eng heng := by
    rw [eq_reset_of_mem_reset_engines heng]
    rfl
  disjoint e o _ := by
    rw [reset_engines_getD, inFlightFootprint_of_idle resetEngine_busy]
    rfl

/-- Settles O54: the marked state carries the answer as its mark, which its own step reads first. -/
theorem outcomeMarkIsSticky : Obligations.OutcomeMarkIsSticky := by
  constructor
  · intro s r h
    rw [h]
    exact ⟨step_of_fault_mark rfl, rfl⟩
  · intro s r h
    rw [h]
    exact ⟨step_of_refused_mark rfl, rfl⟩

end Sys2Proof.Machine
end

section
/-! The samples and the engines a step can change, said once per effect, and the invariant every step keeps (20_memory R60,
R67; 30_encoding R95; 60_exceptions R254, R268; 10_state R40, R41). -/

namespace Sys2Proof.Machine

open Sys2Proof.Safety

/-! ## The samples a step can change -/

/-- R67: a command stores to plane addresses alone. -/
theorem commandStores_inPlane {plane : List Region} {c : Command} {m : Memory} {e : Engine} {w : Host.Cell}
    (h : Performable plane c) (hw : w ∈ commandStores c m e) : inPlane plane (w.1 : Int) = true := by
  obtain ⟨j, hj, p, hp, rfl⟩ := mem_commandStores.1 hw
  have hsite := site_inPlane h hj ((kWrite_sublist _).subset hp)
  rwa [Int.toNat_of_nonneg (inPlane_bounds hsite).1]

theorem drawnStores_sublist (n : Nat) (ws : List Host.Cell) : (drawnStores n ws).Sublist ws := by
  induction ws generalizing n with
  | nil => exact List.Sublist.refl _
  | cons w rest ih =>
    unfold drawnStores
    split
    · exact (ih _).cons_cons w
    · exact (ih _).cons w

/-- Whatever a step does to the samples is a list of stores to plane addresses. -/
theorem Effect.mem_eq {s t : State} (h : Effect s t) :
    ∃ ws : List Host.Cell, t.mem = memWrites s.mem ws ∧ ∀ w ∈ ws, inPlane s.plane (w.1 : Int) = true := by
  cases h with
  | performed e eng i _ _ _ hp h =>
    exact ⟨_, by rw [h, completed_mem], fun w hw => commandStores_inPlane hp hw⟩
  | stored a v ha h => exact ⟨[(a, v)], by rw [h]; rfl, by simpa using ha⟩
  | resetBusy e eng c _ _ hp h =>
    exact ⟨_, by rw [h, abandoned_mem], fun w hw => commandStores_inPlane hp ((drawnStores_sublist _ _).subset hw)⟩
  | nothing h => exact ⟨[], by rw [h]; rfl, by simp⟩
  | staged _ _ _ _ _ h => exact ⟨[], by rw [h]; rfl, by simp⟩
  | latched _ _ _ _ _ _ _ _ h => exact ⟨[], by rw [h]; rfl, by simp⟩
  | read _ _ h => exact ⟨[], by rw [h]; rfl, by simp⟩
  | resetIdle _ _ _ h => exact ⟨[], by rw [h]; rfl, by simp⟩

/-- Settles O53: every store of a step goes to a plane address, which `a` is not. -/
theorem noStepWritesOutsideThePlane : Obligations.NoStepWritesOutsideThePlane := by
  intro s t a hstep ha
  obtain ⟨-, heffect⟩ := step_effect hstep
  obtain ⟨ws, hmem, hws⟩ := heffect.mem_eq
  rw [hmem]
  refine memRead_memWrites_of_notMem fun w hw hwa => ?_
  have hin := hws w hw
  rw [hwa, advanced_plane, ha] at hin
  cases hin

/-- Stores within the address space keep the plane in canonical form and within it. -/
theorem memOk_of_memWrites {s t : State} {ws : List Host.Cell} (hs : memOk s = true) (hmem : t.mem = memWrites s.mem ws)
    (hws : ∀ w ∈ ws, w.1 < Config.addressCount) : memOk t = true := by
  simp only [memOk, Bool.and_eq_true, List.all_eq_true, decide_eq_true_eq] at hs ⊢
  obtain ⟨hwf, hcells⟩ := hs
  rw [hmem]
  exact ⟨memWrites_wf ws hwf, fun c hc => (mem_memWrites hc).elim (hcells c) (hws c)⟩

/-! ## The engines a step can change -/

theorem Effect.outcome_eq {s t : State} (h : Effect s t) : t.outcome = s.outcome := by
  cases h with
  | nothing h => rw [h]
  | performed _ _ _ _ _ _ _ h => rw [h, completed_outcome]
  | staged _ _ _ _ _ h => rw [h, setEngine_outcome]
  | latched _ _ _ _ _ _ _ _ h => rw [h, setEngine_outcome]
  | read _ _ h => rw [h]
  | stored _ _ _ h => rw [h]
  | resetIdle _ _ _ h => rw [h, setEngine_outcome]
  | resetBusy _ _ _ _ _ _ h => rw [h, abandoned_outcome]

theorem firstUnwritten_eq_none {w : Written} : firstUnwritten w = none ↔ w = ⟨true, true, true, true⟩ := by
  obtain ⟨a, b, c, d⟩ := w
  cases a <;> cases b <;> cases c <;> cases d <;> decide

theorem engineOk_iff {eng : Engine} : engineOk eng = true ↔
    (eng.busy = true → (∃ i, decode eng.inflight = .ok i) ∧ eng.wr = ⟨true, true, true, true⟩) ∧
      eng.lines.length = Config.lumaLines ∧ eng.flags.length = Config.lumaLines := by
  have hd : (decode eng.inflight).toOption.isSome = true ↔ ∃ i, decode eng.inflight = .ok i := by
    cases decode eng.inflight <;> simp [Except.toOption]
  rw [← firstUnwritten_eq_none, ← hd, ← Option.isNone_iff_eq_none]
  cases hb : eng.busy <;> simp [engineOk, hb, and_assoc]

/-- A staging write can only set a written flag. -/
theorem stageWrite_wr_of_written {eng : Engine} (r : RegIndex) (v : Word) (h : eng.wr = ⟨true, true, true, true⟩) :
    (stageWrite eng r v).wr = ⟨true, true, true, true⟩ := by
  cases r <;> simp [stageWrite, h]

theorem engineOk_stageWrite {eng : Engine} (r : RegIndex) (v : Word) (h : engineOk eng = true) :
    engineOk (stageWrite eng r v) = true := by
  simp only [engineOk_iff, stageWrite_busy, stageWrite_inflight, stageWrite_lines, stageWrite_flags] at h ⊢
  obtain ⟨hbusy, hfiles⟩ := h
  exact ⟨fun hb => (hbusy hb).imp_right (stageWrite_wr_of_written r v), hfiles⟩

theorem engineOk_completedEngine (c : Command) (m : Memory) (n : Nat) (eng : Engine) :
    engineOk (completedEngine c m n eng) = true :=
  engineOk_iff.2 ⟨nofun, gatherLines_length _ _ _, gatherFlags_length _ _ _⟩

theorem engineOk_latched {eng : Engine} {i : Instr} (hd : decode eng.staged = .ok i) (hw : firstUnwritten eng.wr = none)
    (h : engineOk eng = true) : engineOk (latched eng) = true :=
  engineOk_iff.2 ⟨fun _ => ⟨⟨i, hd⟩, firstUnwritten_eq_none.1 hw⟩, (engineOk_iff.1 h).2⟩

theorem inFlightFootprint_stageWrite (eng : Engine) (r : RegIndex) (v : Word) :
    inFlightFootprint (stageWrite eng r v) = inFlightFootprint eng := by
  simp [inFlightFootprint, inFlight]

theorem inFlightFootprint_of_busy {eng : Engine} {i : Instr} (hb : eng.busy = true) (hd : decode eng.inflight = .ok i) :
    inFlightFootprint eng = (footprint (commandOf i)).map Site.addr := by
  rw [inFlightFootprint, inFlight_of_busy hb hd]

/-- An engine that becomes idle has no address in flight to share. -/
theorem sharingEngine_of_idle (s : State) (e : Nat) {eng : Engine} (hb : eng.busy = false) :
    sharingEngine s e (inFlightFootprint eng) = none := by
  rw [inFlightFootprint_of_idle hb]
  exact sharingEngine_eq_none.2 fun _ _ _ _ _ _ _ hmem => absurd hmem List.not_mem_nil

/-- Engine `e` of `s`, which is `eng`, can become `eng'`: its own clause of the invariant is kept, and its footprint in flight
is the old one or met by no other engine. -/
structure EngineMove (s : State) (e : Nat) (eng eng' : Engine) : Prop where
  at_index : s.engines[e]? = some eng
  ok : engineOk eng = true → engineOk eng' = true
  footprint : inFlightFootprint eng' = inFlightFootprint eng ∨ sharingEngine s e (inFlightFootprint eng') = none

/-- A step changes one engine at most, and only by such a move. -/
theorem Effect.engines_eq {s t : State} (h : Effect s t) : t.engines = s.engines ∨
    ∃ e eng eng', t.engines = s.engines.set e eng' ∧ EngineMove s e eng eng' := by
  cases h with
  | nothing h => exact .inl (by rw [h])
  | read _ _ h => exact .inl (by rw [h])
  | stored _ _ _ h => exact .inl (by rw [h])
  | performed e eng i he _ _ _ h =>
    exact .inr ⟨e, eng, _, by rw [h, completed_engines], he, fun _ => engineOk_completedEngine _ _ _ _,
      .inr (sharingEngine_of_idle s e (completedEngine_busy _ _ _ _))⟩
  | staged e eng r v he h =>
    exact .inr ⟨e, eng, _, by rw [h, setEngine_engines], he, engineOk_stageWrite r v,
      .inl (inFlightFootprint_stageWrite eng r v)⟩
  | latched e eng i he _ hd hw hs h =>
    refine .inr ⟨e, eng, _, by rw [h, setEngine_engines], he, engineOk_latched hd hw, .inr ?_⟩
    rwa [inFlightFootprint_of_busy (latched_busy eng) hd]
  | resetIdle e eng he h =>
    exact .inr ⟨e, eng, _, by rw [h, setEngine_engines], he, fun _ => rfl,
      .inr (sharingEngine_of_idle s e resetEngine_busy)⟩
  | resetBusy e eng _ he _ _ h =>
    exact .inr ⟨e, eng, _, by rw [h, abandoned_engines], he, fun _ => rfl,
      .inr (sharingEngine_of_idle s e resetEngine_busy)⟩

/-! ## Disjoint footprints -/

@[simp] theorem inFlightFootprint_reset : inFlightFootprint Engine.reset = [] :=
  inFlightFootprint_of_idle resetEngine_busy

/-- An index past the last engine reads as an idle engine, so R268 is about the engines there are. -/
theorem footprintsDisjoint_iff {s : State} : footprintsDisjoint s ↔
    ∀ e eng, s.engines[e]? = some eng → sharingEngine s e (inFlightFootprint eng) = none := by
  constructor
  · intro h e eng he
    refine sharingEngine_eq_none.2 fun o other hoe ho => sharesAddress_eq_false.1 ?_
    simpa [List.getD, he, ho] using h o e hoe
  · intro h e o heo
    rw [sharesAddress_eq_false]
    cases he : s.engines[e]? with
    | none => simp [List.getD, he]
    | some eng =>
      cases ho : s.engines[o]? with
      | none => simp [List.getD, ho]
      | some other =>
        simpa [List.getD, he, ho] using sharingEngine_eq_none.1 (h o other ho) e eng heo he

/-- A move of one engine keeps the footprints in flight disjoint: the moved engine meets no other by `EngineMove`, and two
others meet as little as before. -/
theorem footprintsDisjoint_of_move {s t : State} {e : Nat} {eng eng' : Engine} (hs : footprintsDisjoint s)
    (ht : t.engines = s.engines.set e eng') (hm : EngineMove s e eng eng') : footprintsDisjoint t := by
  obtain ⟨he, -, hfp⟩ := hm
  rw [footprintsDisjoint_iff] at hs ⊢
  have hmoved : sharingEngine s e (inFlightFootprint eng') = none := hfp.elim (fun h => h ▸ hs e eng he) id
  have hself : t.engines[e]? = some eng' := by rw [ht, List.getElem?_set_self (lt_length_of_getElem? he)]
  have hother : ∀ o, o ≠ e → t.engines[o]? = s.engines[o]? := fun o ho => by rw [ht, List.getElem?_set_ne ho.symm]
  intro a enga ha
  refine sharingEngine_eq_none.2 fun b engb hba hb x hx y hy => ?_
  by_cases hae : a = e
  · subst hae
    rw [hself] at ha
    rw [hother b hba] at hb
    cases ha
    exact sharingEngine_eq_none.1 hmoved b engb hba hb x hx y hy
  · rw [hother a hae] at ha
    by_cases hbe : b = e
    · subst hbe
      rw [hself] at hb
      cases hb
      exact (sharingEngine_eq_none.1 hmoved a enga hae ha y hy x hx).symm
    · rw [hother b hbe] at hb
      exact sharingEngine_eq_none.1 (hs a enga ha) b engb hba hb x hx y hy

/-! ## The invariant -/

theorem Effect.inv {s t : State} (h : Effect s t) (hs : Inv s) : Inv t := by
  obtain ⟨houtcome, hmemOk, hengines, hdisjoint⟩ := hs
  obtain ⟨ws, hmem, hws⟩ := h.mem_eq
  have hmem' : memOk t = true := memOk_of_memWrites hmemOk hmem fun w hw => by
    exact_mod_cast (inPlane_bounds (hws w hw)).2
  have houtcome' : t.outcome = .ok := h.outcome_eq.trans houtcome
  rcases h.engines_eq with heq | ⟨e, eng, eng', hset, hmove⟩
  · exact ⟨houtcome', hmem', by rwa [heq], by rwa [footprintsDisjoint, heq]⟩
  · refine ⟨houtcome', hmem', fun x hx => ?_, footprintsDisjoint_of_move hdisjoint hset hmove⟩
    rw [hset] at hx
    rcases List.mem_or_eq_of_mem_set hx with hold | rfl
    · exact hengines x hold
    · exact hmove.ok (hengines eng (List.mem_of_getElem? hmove.at_index))

/-- The pending moves are no part of the invariant. -/
theorem inv_advanced {s : State} (h : Inv s) : Inv (advanced s) :=
  ⟨h.outcome, h.mem, h.engines, h.disjoint⟩

/-- Settles O50, by the inversion of a step: whatever its effect, it keeps the invariant. -/
theorem stepKeepsTheSystemInvariant : Obligations.StepKeepsTheSystemInvariant := by
  intro s t hs hstep
  obtain ⟨-, heffect⟩ := step_effect hstep
  exact heffect.inv (inv_advanced hs)

end Sys2Proof.Machine
end

section
/-! The faults of a command at perform, by the order of its footprint (20_memory R67, R68), and the strides at which its
addresses coincide (46_commands R230 to R237). -/

namespace Sys2Proof.Machine

open Sys2Proof.Safety

/-! ## The order of the footprint -/

/-- Lines ascending, then positions ascending (R67). -/
def Site.Before (x y : Site) : Prop :=
  x.line < y.line ∨ (x.line = y.line ∧ x.pos.offset < y.pos.offset)

theorem Site.Before.asymm {x y : Site} (h : x.Before y) : ¬y.Before x := by
  unfold Site.Before at *
  omega

theorem Site.Before.irrefl (x : Site) : ¬x.Before x := fun h => h.asymm h

theorem footprint_pairwise_before (c : Command) : (footprint c).Pairwise Site.Before :=
  footprint_ascending c

/-- Two sites in order stand in that order in an ordered list. -/
theorem pair_sublist_of_before {l : List Site} (hl : l.Pairwise Site.Before) {x y : Site} (hx : x ∈ l) (hy : y ∈ l)
    (h : x.Before y) : [x, y].Sublist l := by
  obtain ⟨pre, post, rfl⟩ := List.append_of_mem hx
  have hpre := (List.pairwise_append.1 hl).2.2
  have hpost : y ∈ post := by
    rcases List.mem_append.1 hy with hy | hy
    · exact absurd (hpre y hy x List.mem_cons_self) h.asymm
    · exact (List.mem_cons.1 hy).resolve_left fun he => Site.Before.irrefl x (he ▸ h)
  exact ((List.singleton_sublist.2 hpost).cons_cons x).trans (List.sublist_append_right _ _)

theorem mem_footprint_site {i : Instr} {j : Nat} {p : Pos} (hj : j < lineCount i.kind) (hp : p ∈ kReq i.kind) :
    ⟨j, p, siteAddr (commandOf i) j p⟩ ∈ footprint (commandOf i) :=
  mem_sites.2 ⟨j, by rwa [commandOf_kind], p, by rwa [commandOf_kind], rfl⟩

theorem of_mem_footprint {i : Instr} {x : Site} (h : x ∈ footprint (commandOf i)) :
    x.line < lineCount i.kind ∧ x.pos ∈ kReq i.kind ∧ x.addr = siteAddr (commandOf i) x.line x.pos := by
  obtain ⟨j, hj, p, hp, rfl⟩ := mem_sites.1 h
  rw [commandOf_kind] at hj hp
  exact ⟨hj, hp, rfl⟩

/-! ## What the checks answer -/

/-- R67: in an ordered list, a site that is not valid, with every site before it valid, is the one answered. -/
theorem firstInvalid_of_least {plane : List Region} {l : List Site} (hl : l.Pairwise Site.Before) {x : Site}
    (hx : x ∈ l) (hbad : inPlane plane x.addr = false)
    (hleast : ∀ y ∈ l, y.Before x → inPlane plane y.addr = true) : firstInvalid plane l = some x := by
  obtain ⟨pre, post, rfl⟩ := List.append_of_mem hx
  have hpre := (List.pairwise_append.1 hl).2.2
  exact firstInvalid_eq_some.2 ⟨hbad, pre, post, rfl, fun y hy =>
    hleast y (List.mem_append_left _ hy) (hpre y hy x List.mem_cons_self)⟩

/-- R68: in an ordered list the pair answered is the least coinciding one: no other has an earlier first member, or the same
first member and an earlier second. -/
theorem firstOverlap_least {l : List Site} (hl : l.Pairwise Site.Before) {x y u v : Site}
    (h : firstOverlap l = some (x, y)) (huv : [u, v].Sublist l) (hsame : u.addr = v.addr) :
    x.Before u ∨ (x = u ∧ (y.Before v ∨ y = v)) := by
  induction l with
  | nil => cases h
  | cons z rest ih =>
    obtain ⟨hz, hrest⟩ := List.pairwise_cons.1 hl
    unfold firstOverlap at h
    split at h
    · rename_i w hw
      cases h
      obtain ⟨-, pre, post, rfl, hpre⟩ := List.find?_eq_some_iff_append.1 hw
      rcases List.cons_sublist_cons'.1 huv with hin | ⟨rfl, hv⟩
      · exact .inl (hz u (hin.subset List.mem_cons_self))
      · refine .inr ⟨rfl, ?_⟩
        have hvpre : v ∉ pre := fun hv => by simpa [hsame] using hpre v hv
        have hvpost := (List.mem_append.1 (List.singleton_sublist.1 hv)).resolve_left hvpre
        rcases List.mem_cons.1 hvpost with rfl | hvpost
        · exact .inr rfl
        · exact .inl ((List.pairwise_cons.1 (List.pairwise_append.1 hrest).2.1).1 v hvpost)
    · rename_i hnone
      rcases List.cons_sublist_cons'.1 huv with hin | ⟨rfl, hv⟩
      · exact ih hrest h hin
      · have := List.find?_eq_none.1 hnone v (List.singleton_sublist.1 hv)
        simp [hsame] at this

theorem performFault_of_invalid {plane : List Region} {c : Command} {x : Site}
    (h : firstInvalid plane (footprint c) = some x) : performFault plane c = some (.outOfPlane x.addr) := by
  unfold performFault
  rw [h]

/-- With every footprint address valid, distinctness alone decides. -/
theorem performFault_of_overlap {plane : List Region} {c : Command} {x y : Site}
    (hvalid : ∀ x ∈ footprint c, inPlane plane x.addr = true) (h : firstOverlap (footprint c) = some (x, y)) :
    performFault plane c = some (.footprintOverlap x.line x.pos.offset y.line y.pos.offset) := by
  unfold performFault
  rw [firstInvalid_eq_none.2 hvalid, h]

theorem exec_of_fault {i : Instr} {s : State} {r : Fault} (h : performFault s.plane (commandOf i) = some r) :
    exec i s = .fault r := by
  rw [exec_eq_perform, perform, h]

theorem exec_of_performable {i : Instr} {s : State} (h : Performable s.plane (commandOf i)) :
    exec i s = .next (completed (commandOf i) s) := by
  rw [exec_eq_perform, perform_of_performable h]

theorem exists_firstOverlap {l : List Site} (h : ¬l.Pairwise fun x y => x.addr ≠ y.addr) :
    ∃ x y, firstOverlap l = some (x, y) := by
  rw [← firstOverlap_eq_none] at h
  obtain ⟨⟨x, y⟩, hxy⟩ := Option.ne_none_iff_exists'.1 h
  exact ⟨x, y, hxy⟩

/-- Settles O22: the footprint is listed in the order of R67, so the first site found is the least. -/
theorem firstInvalidAddressFaults : Obligations.FirstInvalidAddressFaults := by
  intro i s j p hj hp hbad hleast
  refine exec_of_fault (performFault_of_invalid (firstInvalid_of_least (footprint_pairwise_before _)
    (mem_footprint_site hj hp) hbad fun y hy hbefore => ?_))
  obtain ⟨hline, hpos, haddr⟩ := of_mem_footprint hy
  rw [haddr]
  exact hleast y.line hline y.pos hpos hbefore

theorem pos_eq_iff_offset {p q : Pos} : p = q ↔ p.offset = q.offset :=
  ⟨congrArg Pos.offset, offset_inj⟩

/-- Settles O23: a coinciding pair exists, the one answered is the least of the list, and the order of pairs is total. -/
theorem firstCoincidingPairFaults : Obligations.FirstCoincidingPairFaults := by
  intro i s j1 j2 pa pb hvalid hj1 hj2 hpa hpb hbefore hsame hleast
  have hsorted := footprint_pairwise_before (commandOf i)
  have hpair := pair_sublist_of_before hsorted (mem_footprint_site hj1 hpa) (mem_footprint_site hj2 hpb) hbefore
  obtain ⟨x, y, hxy⟩ : ∃ x y, firstOverlap (footprint (commandOf i)) = some (x, y) :=
    exists_firstOverlap fun hd => (List.pairwise_iff_forall_sublist.1 hd) hpair hsame
  have hfirst := firstOverlap_least hsorted hxy hpair hsame
  obtain ⟨hx, hy, haddr⟩ := firstOverlap_eq_some hxy
  have hxybefore : x.Before y := List.pairwise_iff_forall_sublist.1 hsorted (firstOverlap_sublist hxy)
  obtain ⟨hxl, hxp, hxa⟩ := of_mem_footprint hx
  obtain ⟨hyl, hyp, hya⟩ := of_mem_footprint hy
  have hle := hleast x.line hxl x.pos hxp y.line hyl y.pos hyp hxybefore (by rw [← hxa, ← hya, haddr])
  rw [pos_eq_iff_offset] at hle
  rcases hfirst with hlt | ⟨rfl, hlt | rfl⟩
  · simp only [Site.Before] at hlt
    omega
  · simp only [Site.Before] at hlt hle
    omega
  · exact exec_of_fault (performFault_of_overlap hvalid hxy)

/-! ## The stride -/

/-- How far a Line reaches on each side of the edge: the positions of `K_req` are `-reach` to `reach - 1` (20_memory R65). -/
def reach : Kind → Int
  | .luma => 4
  | .lumaIntra => 4
  | .chroma => 3
  | .chromaIntra => 3

theorem mem_kReq_iff {k : Kind} {p : Pos} : p ∈ kReq k ↔ -reach k ≤ p.offset ∧ p.offset < reach k := by
  cases k <;> cases p <;> decide

theorem exists_pos_of_offset {k : Kind} {n : Int} (h1 : -reach k ≤ n) (h2 : n < reach k) :
    ∃ p ∈ kReq k, p.offset = n := by
  have hk : reach k ≤ 4 := by cases k <;> decide
  have hn : ∃ p : Pos, p.offset = n := by
    obtain ⟨hlo, hhi⟩ : -4 ≤ n ∧ n ≤ 3 := by omega
    interval_cases n
    exacts [⟨.p3, rfl⟩, ⟨.p2, rfl⟩, ⟨.p1, rfl⟩, ⟨.p0, rfl⟩, ⟨.q0, rfl⟩, ⟨.q1, rfl⟩, ⟨.q2, rfl⟩, ⟨.q3, rfl⟩]
  obtain ⟨p, rfl⟩ := hn
  exact ⟨p, mem_kReq_iff.2 ⟨h1, h2⟩, rfl⟩

/-- The least magnitude of a stride at which the addresses of a kind and form are distinct: the length of a Line in the
vertical form, the number of Lines in the horizontal form. -/
def leastStride (k : Kind) (d : Dir) : Int :=
  match d with
  | .vertical => 2 * reach k
  | .horizontal => (lineCount k : Int)

/-- Two multiples of a stride with remainders closer than the stride are the same sum only when they are the same. -/
theorem eq_of_mul_add_eq {s m m' r r' : Int} (hr : |r' - r| < |s|) (h : m * s + r = m' * s + r') : m = m' ∧ r = r' := by
  have hmul : (m - m') * s = r' - r := by linear_combination h
  have hm : m - m' = 0 := by
    by_contra hne
    have hone : 1 ≤ |m - m'| := Int.one_le_abs hne
    rw [← hmul, abs_mul] at hr
    nlinarith [abs_nonneg s]
  rw [hm, zero_mul] at hmul
  omega

theorem siteAddr_vertical {c : Command} (h : c.dir = .vertical) (j : Nat) (p : Pos) :
    siteAddr c j p = c.ops.edgePtr + ((j : Int) * c.ops.stride + p.offset) := by
  simp only [siteAddr, lineStep, acrossStep, h]
  ring

theorem siteAddr_horizontal {c : Command} (h : c.dir = .horizontal) (j : Nat) (p : Pos) :
    siteAddr c j p = c.ops.edgePtr + (p.offset * c.ops.stride + (j : Int)) := by
  simp only [siteAddr, lineStep, acrossStep, h]
  ring

/-- From the least stride on, no two positions of the footprint are at one address. -/
theorem siteAddr_inj_of_leastStride {c : Command} (h : leastStride c.filter.kind c.dir ≤ |c.ops.stride|) {j j' : Nat}
    {p p' : Pos} (hj : j < lineCount c.filter.kind) (hj' : j' < lineCount c.filter.kind)
    (hp : p ∈ kReq c.filter.kind) (hp' : p' ∈ kReq c.filter.kind) (he : siteAddr c j p = siteAddr c j' p') :
    j = j' ∧ p = p' := by
  rw [mem_kReq_iff] at hp hp'
  cases hd : c.dir with
  | vertical =>
    simp only [hd, leastStride] at h
    rw [siteAddr_vertical hd, siteAddr_vertical hd, add_right_inj] at he
    obtain ⟨hline, hoffset⟩ := eq_of_mul_add_eq (lt_of_lt_of_le (by rw [abs_lt]; omega) h) he
    exact ⟨by omega, offset_inj hoffset⟩
  | horizontal =>
    simp only [hd, leastStride] at h
    rw [siteAddr_horizontal hd, siteAddr_horizontal hd, add_right_inj] at he
    obtain ⟨hoffset, hline⟩ := eq_of_mul_add_eq (lt_of_lt_of_le (by rw [abs_lt]; omega) h) he
    exact ⟨by omega, offset_inj hoffset⟩

/-- Below the least stride two positions coincide: in Lines 0 and 1 of the vertical form, at q0 and q1 of the horizontal. -/
theorem exists_coinciding_of_lt_leastStride {c : Command} (h : |c.ops.stride| < leastStride c.filter.kind c.dir) :
    ∃ j < lineCount c.filter.kind, ∃ p ∈ kReq c.filter.kind, ∃ j' < lineCount c.filter.kind,
      ∃ p' ∈ kReq c.filter.kind, ¬(j = j' ∧ p = p') ∧ siteAddr c j p = siteAddr c j' p' := by
  have hlines : 1 < lineCount c.filter.kind := by cases c.filter.kind <;> decide
  have hreach : 3 ≤ reach c.filter.kind := by cases c.filter.kind <;> decide
  rw [abs_lt] at h
  cases hd : c.dir with
  | vertical =>
    simp only [hd, leastStride] at h
    obtain ⟨p, hp, hpo⟩ := exists_pos_of_offset (k := c.filter.kind) (n := max c.ops.stride 0 - reach c.filter.kind)
      (by omega) (by omega)
    obtain ⟨p', hp', hpo'⟩ := exists_pos_of_offset (k := c.filter.kind)
      (n := max (-c.ops.stride) 0 - reach c.filter.kind) (by omega) (by omega)
    refine ⟨0, by omega, p, hp, 1, hlines, p', hp', by omega, ?_⟩
    rw [siteAddr_vertical hd, siteAddr_vertical hd, hpo, hpo']
    push_cast
    omega
  | horizontal =>
    simp only [hd, leastStride] at h
    have hq0 : Pos.q0 ∈ kReq c.filter.kind := by cases c.filter.kind <;> decide
    have hq1 : Pos.q1 ∈ kReq c.filter.kind := by cases c.filter.kind <;> decide
    refine ⟨c.ops.stride.toNat, by omega, .q0, hq0, (-c.ops.stride).toNat, by omega, .q1, hq1, nofun, ?_⟩
    rw [siteAddr_horizontal hd, siteAddr_horizontal hd]
    simp only [Pos.offset]
    omega

/-- R230 to R237: with every footprint address valid, the stride alone decides the preconditions. -/
theorem performable_iff_leastStride {plane : List Region} {c : Command}
    (hvalid : ∀ x ∈ footprint c, inPlane plane x.addr = true) :
    Performable plane c ↔ leastStride c.filter.kind c.dir ≤ |c.ops.stride| := by
  constructor
  · intro hperf
    by_contra hlt
    obtain ⟨j, hj, p, hp, j', hj', p', hp', hne, he⟩ := exists_coinciding_of_lt_leastStride (not_le.1 hlt)
    exact hne (site_inj hperf hj hp hj' hp' he)
  · intro hstride
    refine ⟨hvalid, (footprint_pairwise_before c).imp_of_mem fun {x y} hx hy hbefore he => ?_⟩
    obtain ⟨j, hj, p, hp, rfl⟩ := mem_sites.1 hx
    obtain ⟨j', hj', p', hp', rfl⟩ := mem_sites.1 hy
    obtain ⟨rfl, rfl⟩ := siteAddr_inj_of_leastStride hstride hj hj' hp hp' he
    exact Site.Before.irrefl _ hbefore

/-- Settles O25: the stride decides distinctness, and with valid addresses the only fault left is the overlap. -/
theorem strideDecidesOverlap : Obligations.StrideDecidesOverlap := by
  intro i s hvalid least
  have hleast : least = leastStride i.kind i.dir := by cases i <;> rfl
  have hiff := performable_iff_leastStride hvalid
  rw [commandOf_kind, commandOf_dir, commandOf_ops, ← hleast] at hiff
  refine ⟨fun hle => ⟨_, exec_of_performable (hiff.2 hle)⟩, fun hlt => ?_⟩
  have hnot : ¬(footprint (commandOf i)).Pairwise fun x y => x.addr ≠ y.addr := fun hd =>
    absurd (hiff.1 ⟨hvalid, hd⟩) (not_le.2 hlt)
  obtain ⟨x, y, hxy⟩ := exists_firstOverlap hnot
  exact ⟨_, _, _, _, exec_of_fault (performFault_of_overlap hvalid hxy)⟩

end Sys2Proof.Machine
end

section
/-! The plane between the host and the commands (20_memory R70, R72, R73): the frame of a command, and which of the host's
and the engine's accesses see one another. -/

namespace Sys2Proof.Machine

open Sys2Proof.Safety

/-- Settles O30: a completed command stores to its written positions alone and replaces the performing engine alone. -/
theorem commandsChangeOnlyTheirWrittenPositions : Obligations.CommandsChangeOnlyTheirWrittenPositions := by
  intro i s t hexec
  rw [exec_eq_perform] at hexec
  obtain ⟨hp, rfl⟩ := perform_next hexec
  refine ⟨fun a ha => ?_, rfl, rfl, rfl, rfl, rfl, rfl, ?_, fun e he => ?_, fun eng heng => ?_⟩
  · rw [completed_mem]
    refine memRead_commandStores_ne _ _ fun j hj q hq hqa => ?_
    have hnonneg := (inPlane_bounds (site_inPlane hp hj ((kWrite_sublist _).subset hq))).1
    rw [commandOf_kind] at hj hq
    exact ha j hj q hq (by omega)
  · rw [completed_engines, List.length_set]
  · rw [completed_engines, List.getElem?_set_ne he.symm]
  · exact ⟨_, completed_getElem?_active heng, rfl, rfl, rfl⟩

/-! ## Host accesses -/

theorem step_planeRead_refused {s : State} {a : Nat} {rest : List Input} {r : Refusal} (ho : s.outcome = .ok)
    (hi : s.inputs = .planeRead a :: rest) (hr : hostAccessRefusal { s with inputs := rest } a = some r) :
    step s = .refused r := by
  rw [step_of_nextTurn ho (nextTurn_planeRead hi)]
  show hostPlaneRead a { s with inputs := rest } = _
  unfold hostPlaneRead
  rw [hr]

theorem step_planeWrite_refused {s : State} {a : Nat} {v : Byte} {rest : List Input} {r : Refusal}
    (ho : s.outcome = .ok) (hi : s.inputs = .planeWrite a v :: rest)
    (hr : hostAccessRefusal { s with inputs := rest } a = some r) : step s = .refused r := by
  rw [step_of_nextTurn ho (nextTurn_planeWrite hi)]
  show hostPlaneWrite a v { s with inputs := rest } = _
  unfold hostPlaneWrite
  rw [hr]

theorem hostAccessRefusal_of_touched {s : State} {a : Nat} (ha : inPlane s.plane (a : Int) = true) {eng : Engine}
    (heng : eng ∈ s.engines) (htouch : (a : Int) ∈ inFlightFootprint eng) :
    hostAccessRefusal s a = some (.hostTouchesFootprint a) := by
  have h : inFlightTouches s a = true :=
    List.any_eq_true.2 ⟨eng, heng, List.any_eq_true.2 ⟨a, htouch, decide_eq_true rfl⟩⟩
  simp [hostAccessRefusal, ha, h]

/-- Settles O45: the address is in the footprint of the command in the latch. -/
theorem hostAccessToFootprintIsRefused : Obligations.HostAccessToFootprintIsRefused := by
  intro s eng i x a v rest ho heng hb hd hx hxa ha
  have htouch : (a : Int) ∈ inFlightFootprint eng := by
    rw [inFlightFootprint_of_busy hb hd, ← hxa]
    exact List.mem_map_of_mem hx
  have hr : hostAccessRefusal { s with inputs := rest } a = some (.hostTouchesFootprint a) :=
    hostAccessRefusal_of_touched ha heng htouch
  exact ⟨fun hi => step_planeRead_refused ho hi hr, fun hi => step_planeWrite_refused ho hi hr⟩

/-- With no command in flight every address of PLANE is the host's. -/
theorem hostAccessRefusal_of_idle {s : State} {a : Nat} (ha : inPlane s.plane (a : Int) = true)
    (hidle : ∀ eng ∈ s.engines, eng.busy = false) : hostAccessRefusal s a = none :=
  hostAccessRefusal_of_free ha fun eng heng x hx => by
    rw [inFlightFootprint_of_idle (hidle eng heng)] at hx
    exact absurd hx List.not_mem_nil

/-- With no command in flight no GO shares a footprint. -/
theorem sharingEngine_of_all_idle {s : State} {e : Nat} {fp : List Int} (hidle : ∀ eng ∈ s.engines, eng.busy = false) :
    sharingEngine s e fp = none :=
  sharingEngine_eq_none.2 fun o other _ hother x hx => by
    rw [inFlightFootprint_of_idle (hidle other (List.mem_of_getElem? hother))] at hx
    exact absurd hx List.not_mem_nil

/-! ## Commands and host accesses in turn -/

/-- R38: a GO on an idle engine whose descriptor is legal, written and meets no footprint in flight latches it. -/
theorem step_go_latches {s : State} {e : Nat} {v : Word} {rest : List Input} {eng : Engine} {i : Instr}
    (ho : s.outcome = .ok) (hi : s.inputs = .write e .status v :: rest) (he : s.engines[e]? = some eng)
    (hb : eng.busy = false) (hd : decode eng.staged = .ok i) (hw : eng.wr = ⟨true, true, true, true⟩)
    (hs : sharingEngine { s with inputs := rest } e ((footprint (commandOf i)).map Site.addr) = none) :
    step s = .next (State.setEngine { s with inputs := rest } e (latched eng)) :=
  (step_go_idle ho hi he hb).trans (go_of_checks hd (firstUnwritten_eq_none.2 hw) hs)

/-- R220: a `perform` move completes the command in the latch of its engine where the preconditions hold. -/
theorem step_perform {s : State} {e : Nat} {rest : List Input} {eng : Engine} {i : Instr} (ho : s.outcome = .ok)
    (hi : s.inputs = .perform e :: rest) (he : s.engines[e]? = some eng) (hb : eng.busy = true)
    (hd : decode eng.inflight = .ok i) (hp : Performable s.plane (commandOf i)) :
    step s = .next (completed (commandOf i) { s with inputs := rest, active := e }) := by
  rw [step_of_nextTurn ho (nextTurn_perform hi)]
  exact (engineTurn_busy (s := { s with inputs := rest }) he hb hd).trans (exec_of_performable hp)

/-- After the only command in flight completes, every engine is idle. -/
theorem completed_idle {c : Command} {s : State}
    (hothers : ∀ o other, o ≠ s.active → s.engines[o]? = some other → other.busy = false) :
    ∀ eng ∈ (completed c s).engines, eng.busy = false := by
  intro eng heng
  obtain ⟨o, ho⟩ := List.mem_iff_getElem?.1 heng
  rw [completed_engines] at ho
  by_cases hoa : o = s.active
  · subst hoa
    have hlt : s.active < s.engines.length := by simpa using (List.getElem?_eq_some_iff.1 ho).1
    rw [List.getElem?_set_self hlt] at ho
    cases ho
    rfl
  · rw [List.getElem?_set_ne (Ne.symm hoa)] at ho
    exact hothers o eng hoa ho

/-- Settles O44: the command's completion leaves every engine idle, so the read that follows is not refused. -/
theorem hostSeesCommandWrites : Obligations.HostSeesCommandWrites := by
  intro s e eng i a rest ho hi he hb hd hp hothers ha
  have hread := step_planeRead (s := completed (commandOf i) { s with inputs := .planeRead a :: rest, active := e }) ho rfl
    (hostAccessRefusal_of_idle ha (completed_idle hothers))
  exact ⟨_, _, exec_of_performable hp,
    (run_succ_of_next (step_perform ho hi he hb hd hp)).trans (run_one_of_next hread), rfl, rfl⟩

/-- A command leaves the same samples of planes with the same samples, whichever engine performs it. -/
theorem memRead_completed_congr (c : Command) {s s' : State} (h : ∀ a, memRead s.mem a = memRead s'.mem a) (b : Nat) :
    memRead (completed c s).mem b = memRead (completed c s').mem b := by
  rw [completed_mem, completed_mem, commandStores_engine c s.mem _ s'.activeEngine, commandStores_congr c _ h]
  exact memRead_memWrites_congr _ h b

/-- Settles O59: the write, the GO and the perform step in turn; `m` has the samples of the plane after the write. -/
theorem commandSeesHostWrites : Obligations.CommandSeesHostWrites := by
  intro s e a v w rest eng i m ho hi he hidle hd hw ha hp hma hmb
  have hbusy : eng.busy = false := hidle eng (List.mem_of_getElem? he)
  have hwrite := step_planeWrite ho hi (hostAccessRefusal_of_idle ha hidle)
  have hgo := step_go_latches
    (s := { s with inputs := .write e .status w :: .perform e :: rest, mem := memWrite s.mem a v }) ho rfl he
    (hidle eng (List.mem_of_getElem? he)) hd hw (sharingEngine_of_all_idle hidle)
  have hperform := step_perform
    (s := State.setEngine { s with inputs := .perform e :: rest, mem := memWrite s.mem a v } e (latched eng))
    ho rfl (setEngine_getElem?_self _ he) (latched_busy eng) hd hp
  have hsamples : ∀ b, memRead (memWrite s.mem a v) b = memRead m b := fun b => by
    rw [memRead_memWrite]
    split
    · rename_i hab
      rw [← hab, hma]
    · rename_i hab
      rw [hmb b (Ne.symm hab)]
  exact ⟨_, _, exec_of_performable hp,
    (run_succ_of_next hwrite).trans ((run_succ_of_next hgo).trans (run_one_of_next hperform)),
    memRead_completed_congr _ hsamples⟩

end Sys2Proof.Machine
end

section
/-! The parts of the encoding, each said once (30_encoding R90 to R98): the ranges of a well-formed command, what the decoder
reads and what the encoder writes, field by field. -/

namespace Sys2Proof

open Sys2Proof.Machine

/-! ## The ranges of a well-formed command -/

theorem inRange_iff {lo hi v : Int} : inRange lo hi v = true ↔ lo ≤ v ∧ v ≤ hi := by
  simp [inRange]

theorem EdgeOperands.wellFormed_iff {o : EdgeOperands} : o.wellFormed = true ↔
    (0 ≤ o.edgePtr ∧ o.edgePtr ≤ 4294967295) ∧ (-2147483648 ≤ o.stride ∧ o.stride ≤ 2147483647) ∧
      (0 ≤ o.alpha ∧ o.alpha ≤ 255) ∧ (0 ≤ o.beta ∧ o.beta ≤ 255) := by
  simp only [EdgeOperands.wellFormed, Bool.and_eq_true, inRange_iff, and_assoc]

/-- A property of the four groups' entries is one of the list's four fields. -/
theorem forall_entry_iff {t : Tc0} {p : Int → Prop} :
    (∀ g < 4, p (Ref.entry t g)) ↔ p t.t0 ∧ p t.t1 ∧ p t.t2 ∧ p t.t3 := by
  constructor
  · intro h
    exact ⟨h 0 (by decide), h 1 (by decide), h 2 (by decide), h 3 (by decide)⟩
  · rintro ⟨h0, h1, h2, h3⟩ g hg
    interval_cases g
    exacts [h0, h1, h2, h3]

theorem Tc0.wellFormed_iff {t : Tc0} :
    t.wellFormed = true ↔ ∀ g < 4, -1 ≤ Ref.entry t g ∧ Ref.entry t g ≤ 255 := by
  rw [forall_entry_iff (p := fun v => -1 ≤ v ∧ v ≤ 255)]
  simp only [Tc0.wellFormed, Bool.and_eq_true, inRange_iff, and_assoc]

theorem Tc0.ext_entry {t u : Tc0} (h : ∀ g < 4, Ref.entry t g = Ref.entry u g) : t = u := by
  cases t
  cases u
  exact (Tc0.mk.injEq ..).mpr ⟨h 0 (by decide), h 1 (by decide), h 2 (by decide), h 3 (by decide)⟩

theorem Instr.wellFormed_iff {i : Instr} :
    i.wellFormed = true ↔ i.operands.wellFormed = true ∧ ∀ t, i.tc0 = some t → t.wellFormed = true := by
  cases i <;> simp [Instr.wellFormed, Instr.operands, Instr.tc0]

/-- R98: the ranges of a well-formed command's operands. -/
theorem Instr.operands_range {i : Instr} (h : i.wellFormed = true) :
    (0 ≤ i.operands.edgePtr ∧ i.operands.edgePtr ≤ 4294967295) ∧
      (-2147483648 ≤ i.operands.stride ∧ i.operands.stride ≤ 2147483647) ∧
      (0 ≤ i.operands.alpha ∧ i.operands.alpha ≤ 255) ∧ (0 ≤ i.operands.beta ∧ i.operands.beta ≤ 255) :=
  EdgeOperands.wellFormed_iff.1 (Instr.wellFormed_iff.1 h).1

theorem Instr.tc0_wellFormed {i : Instr} {t : Tc0} (h : i.wellFormed = true) (ht : i.tc0 = some t) :
    t.wellFormed = true :=
  (Instr.wellFormed_iff.1 h).2 t ht

/-- A command is the command of its kind, its form, its operands and, where it has one, its tc0 list. -/
theorem ofKind_parts {i : Instr} {t : Tc0} (h : ∀ u, i.tc0 = some u → t = u) :
    Instr.ofKind i.kind i.dir i.operands t = i := by
  cases i with
  | filterLumaIntraV o | filterLumaIntraH o | filterChromaIntraV o | filterChromaIntraH o => rfl
  | filterLumaV o u | filterLumaH o u | filterChromaV o u | filterChromaH o u =>
    rw [h u rfl]
    rfl

/-- R94: a command of an odd `KIND` does not have the tc0 list. -/
theorem ofKind_of_odd {n : Nat} (h : n % 2 = 1) (d : Dir) (o : EdgeOperands) (t t' : Tc0) :
    Instr.ofKind (kindOfCode (n % 4)) d o t = Instr.ofKind (kindOfCode (n % 4)) d o t' := by
  have hn : n % 4 = 1 ∨ n % 4 = 3 := by omega
  rcases hn with hn | hn <;> rw [hn] <;> cases d <;> rfl

/-! ## The codes of `KIND` and `DIR` -/

theorem kindCode_lt (k : Kind) : (kindCode k).toNat < 4 := by cases k <;> decide

theorem dirCode_lt (d : Dir) : (dirCode d).toNat < 2 := by cases d <;> decide

@[simp] theorem kindOfCode_kindCode (k : Kind) : kindOfCode (kindCode k).toNat = k := by cases k <;> rfl

@[simp] theorem dirOfCode_dirCode (d : Dir) : dirOfCode (dirCode d).toNat = d := by cases d <;> rfl

theorem kindCode_kindOfCode {n : Nat} (h : n < 4) : (kindCode (kindOfCode n)).toNat = n := by
  interval_cases n <;> rfl

theorem dirCode_dirOfCode {n : Nat} (h : n < 2) : (dirCode (dirOfCode n)).toNat = n := by
  interval_cases n <;> rfl

theorem opcodePattern_toNat (k : Kind) (d : Dir) :
    ((dirCode d <<< 2) ||| kindCode k).toNat = (dirCode d).toNat * 4 + (kindCode k).toNat := by
  cases k <;> cases d <;> rfl

/-! ## What the decoder reads -/

theorem decode_operands {d : Descriptor} {i : Instr} (h : decode d = .ok i) : i.operands = decodeOperands d := by
  rw [(decode_ok h).2, ofKind_operands]

theorem decode_kind {d : Descriptor} {i : Instr} (h : decode d = .ok i) : i.kind = kindOfCode (d.ctrl.toNat % 4) := by
  rw [(decode_ok h).2, ofKind_kind]

theorem decode_dir {d : Descriptor} {i : Instr} (h : decode d = .ok i) : i.dir = dirOfCode (d.ctrl.toNat / 4 % 2) := by
  rw [(decode_ok h).2, ofKind_dir]

theorem decode_tc0 {d : Descriptor} {i : Instr} {t : Tc0} (h : decode d = .ok i) (ht : i.tc0 = some t) :
    t = decodeTc0 d := by
  rw [(decode_ok h).2, ofKind_tc0] at ht
  split at ht <;> cases ht <;> rfl

/-- R95: the decoder rejects exactly the descriptors with a reserved field that is not zero. -/
theorem decode_error_iff {d : Descriptor} : decode d = .error .reservedEncoding ↔ ¬LegalCtrl d.ctrl := by
  constructor
  · intro h hl
    rw [decode_of_legal hl] at h
    cases h
  · exact decode_of_not_legal

theorem decodeOperands_alpha (d : Descriptor) :
    (decodeOperands d).alpha = ((d.ctrl.toNat / 2 ^ 8 % 2 ^ 8 : Nat) : Int) :=
  congrArg Nat.cast (field_eq 15 8 d.ctrl)

theorem decodeOperands_beta (d : Descriptor) :
    (decodeOperands d).beta = ((d.ctrl.toNat / 2 ^ 16 % 2 ^ 8 : Nat) : Int) :=
  congrArg Nat.cast (field_eq 23 16 d.ctrl)

theorem decodeOperands_stride (d : Descriptor) : (decodeOperands d).stride =
    (if d.stride.toNat < 2 ^ 31 then (d.stride.toNat : Int) else (d.stride.toNat : Int) - 2 ^ 32) := by
  show d.stride.toInt = _
  rw [BitVec.toInt_eq_toNat_cond]
  have hhalf : 2 * d.stride.toNat < 2 ^ 32 ↔ d.stride.toNat < 2 ^ 31 := by omega
  simp only [hhalf]
  rfl

theorem decodeOperands_wellFormed (d : Descriptor) : (decodeOperands d).wellFormed = true := by
  rw [EdgeOperands.wellFormed_iff, decodeOperands_alpha, decodeOperands_beta]
  have haddr : (decodeOperands d).edgePtr = d.addr.toNat := rfl
  have hstride : (decodeOperands d).stride = d.stride.toInt := rfl
  have := d.addr.isLt
  have := d.stride.toInt_lt
  have := d.stride.le_toInt
  omega

/-- R93 by arithmetic. -/
theorem decodeTc0Entry_eq (d : Descriptor) (g : Nat) : decodeTc0Entry d g =
    (if d.ctrl.toNat / 2 ^ (24 + g) % 2 = 1 then -1 else ((d.tc0.toNat / 2 ^ (8 * g) % 2 ^ 8 : Nat) : Int)) := by
  have hskip : field (24 + g) (24 + g) d.ctrl = d.ctrl.toNat / 2 ^ (24 + g) % 2 := by
    rw [field_eq, Nat.sub_self, Nat.zero_add, Nat.pow_one]
  have htcv : field (8 * g + 7) (8 * g) d.tc0 = d.tc0.toNat / 2 ^ (8 * g) % 2 ^ 8 := by
    rw [field_eq, Nat.add_sub_cancel_left]
  rw [decodeTc0Entry, hskip, htcv]

theorem entry_decodeTc0 (d : Descriptor) {g : Nat} (hg : g < 4) : Ref.entry (decodeTc0 d) g = decodeTc0Entry d g := by
  interval_cases g <;> rfl

/-- R93: the sentinel or an unsigned byte. -/
theorem decodeTc0Entry_range (d : Descriptor) (g : Nat) :
    decodeTc0Entry d g = -1 ∨ (0 ≤ decodeTc0Entry d g ∧ decodeTc0Entry d g ≤ 255) := by
  rw [decodeTc0Entry_eq]
  split <;> omega

theorem decodeTc0_wellFormed (d : Descriptor) : (decodeTc0 d).wellFormed = true :=
  Tc0.wellFormed_iff.2 fun g hg => by
    rw [entry_decodeTc0 d hg]
    have := decodeTc0Entry_range d g
    omega

theorem tc0Entry_eq_entry (t : Tc0) {g : Nat} (hg : g < 4) : tc0Entry t g = Ref.entry t g := by
  interval_cases g <;> rfl

/-! ## What the encoder writes -/

/-- The `SKIP` field of a command: 0 for the intra kinds (R98). -/
def Instr.skip (i : Instr) : Word :=
  (i.tc0.map skipField).getD 0#32

theorem skipBit_toNat (v : Int) : (skipBit v).toNat = if v = -1 then 1 else 0 := by
  unfold skipBit
  split <;> rfl

theorem skipBit_lt (v : Int) : (skipBit v).toNat < 2 := by
  rw [skipBit_toNat]
  split <;> decide

theorem skipField_eq_sum (t : Tc0) : (skipField t).toNat =
    (skipBit t.t3).toNat * 8 + (skipBit t.t2).toNat * 4 + (skipBit t.t1).toNat * 2 + (skipBit t.t0).toNat := by
  simp only [skipField_toNat, skipBit_toNat]

theorem skipField_lt (t : Tc0) : (skipField t).toNat < 16 := by
  have h0 := skipBit_lt t.t0
  have h1 := skipBit_lt t.t1
  have h2 := skipBit_lt t.t2
  have h3 := skipBit_lt t.t3
  rw [skipField_eq_sum]
  omega

theorem Instr.skip_lt (i : Instr) : i.skip.toNat < 16 := by
  unfold Instr.skip
  cases i.tc0 with
  | none => decide
  | some t => exact skipField_lt t

/-- R98: `CMD_CTRL` of a well-formed command as a sum of its fields. -/
theorem encode_ctrl_toNat {i : Instr} (h : i.wellFormed = true) : (encode i).ctrl.toNat =
    i.skip.toNat * 2 ^ 24 + i.operands.beta.toNat * 2 ^ 16 + i.operands.alpha.toNat * 2 ^ 8 +
      (dirCode i.dir).toNat * 2 ^ 2 + (kindCode i.kind).toNat := by
  obtain ⟨-, -, halpha, hbeta⟩ := Instr.operands_range h
  exact encodeCtrl_toNat i.kind i.dir halpha hbeta i.skip_lt

theorem encode_addr_toNat {i : Instr} (h : i.wellFormed = true) :
    ((encode i).addr.toNat : Int) = i.operands.edgePtr := by
  obtain ⟨hptr, -⟩ := Instr.operands_range h
  show ((toWord i.operands.edgePtr).toNat : Int) = _
  rw [toWord_toNat hptr.1 (by omega), Int.toNat_of_nonneg hptr.1]

theorem encode_stride_toInt {i : Instr} (h : i.wellFormed = true) : (encode i).stride.toInt = i.operands.stride := by
  obtain ⟨-, hstride, -⟩ := Instr.operands_range h
  exact BitVec.toInt_ofInt_eq_self (by decide) (by omega) (by omega)

theorem encode_stride_toNat (i : Instr) : ((encode i).stride.toNat : Int) = i.operands.stride % 2 ^ 32 := by
  show ((toWord i.operands.stride).toNat : Int) = _
  rw [toWord, BitVec.toNat_ofInt]
  omega

theorem encode_tc0_of_some {i : Instr} {t : Tc0} (ht : i.tc0 = some t) : (encode i).tc0 = encodeTc0 t := by
  simp [encode, ht]

theorem encode_tc0_of_none {i : Instr} (ht : i.tc0 = none) : (encode i).tc0 = 0#32 := by
  simp [encode, ht]

theorem Instr.skip_of_some {i : Instr} {t : Tc0} (ht : i.tc0 = some t) : i.skip = skipField t := by
  simp [Instr.skip, ht]

/-- Bit g of `SKIP` is that of group g. -/
theorem skipField_bit (t : Tc0) {g : Nat} (hg : g < 4) :
    (skipField t).toNat / 2 ^ g % 2 = (skipBit (Ref.entry t g)).toNat := by
  have h0 := skipBit_lt t.t0
  have h1 := skipBit_lt t.t1
  have h2 := skipBit_lt t.t2
  have h3 := skipBit_lt t.t3
  rw [skipField_eq_sum]
  interval_cases g <;> simp only [Ref.entry, List.getD_cons_zero, List.getD_cons_succ] <;> omega

/-- Byte g of `CMD_TC0` is the entry of group g, or 0 for the sentinel. -/
theorem encodeTc0_byte {t : Tc0} (h : t.wellFormed = true) {g : Nat} (hg : g < 4) :
    (encodeTc0 t).toNat / 2 ^ (8 * g) % 2 ^ 8 = (Ref.entry t g).toNat := by
  obtain ⟨h0, h1, h2, h3⟩ := (forall_entry_iff (p := fun v => -1 ≤ v ∧ v ≤ 255)).1 (Tc0.wellFormed_iff.1 h)
  rw [encodeTc0_toNat h]
  interval_cases g <;> simp only [Ref.entry, List.getD_cons_zero, List.getD_cons_succ] <;> omega

end Sys2Proof
end

section
/-! The statements of the encoding (30_encoding R91 to R100), from its parts. -/

namespace Sys2Proof

open Sys2Proof.Machine

/-! ## Decoding the encoder's words -/

theorem encode_legal {i : Instr} (h : i.wellFormed = true) : LegalCtrl (encode i).ctrl := by
  obtain ⟨-, -, halpha, hbeta⟩ := Instr.operands_range h
  have := i.skip_lt
  have := kindCode_lt i.kind
  have := dirCode_lt i.dir
  rw [LegalCtrl, encode_ctrl_toNat h]
  omega

theorem kindOfCode_encode {i : Instr} (h : i.wellFormed = true) : kindOfCode ((encode i).ctrl.toNat % 4) = i.kind := by
  have hk := kindCode_lt i.kind
  have hcode : (encode i).ctrl.toNat % 4 = (kindCode i.kind).toNat := by
    rw [encode_ctrl_toNat h]
    omega
  rw [hcode, kindOfCode_kindCode]

theorem dirOfCode_encode {i : Instr} (h : i.wellFormed = true) :
    dirOfCode ((encode i).ctrl.toNat / 4 % 2) = i.dir := by
  have hk := kindCode_lt i.kind
  have hd := dirCode_lt i.dir
  have hcode : (encode i).ctrl.toNat / 4 % 2 = (dirCode i.dir).toNat := by
    rw [encode_ctrl_toNat h]
    omega
  rw [hcode, dirOfCode_dirCode]

theorem decodeOperands_encode {i : Instr} (h : i.wellFormed = true) : decodeOperands (encode i) = i.operands := by
  obtain ⟨-, -, halpha, hbeta⟩ := Instr.operands_range h
  have hk := kindCode_lt i.kind
  have hd := dirCode_lt i.dir
  have ea : (decodeOperands (encode i)).alpha = i.operands.alpha := by
    rw [decodeOperands_alpha, encode_ctrl_toNat h]
    omega
  have eb : (decodeOperands (encode i)).beta = i.operands.beta := by
    rw [decodeOperands_beta, encode_ctrl_toNat h]
    omega
  exact (EdgeOperands.mk.injEq ..).mpr ⟨encode_addr_toNat h, encode_stride_toInt h, ea, eb⟩

/-- Bit g of the `SKIP` field in `CMD_CTRL`. -/
theorem encode_skip_bit {i : Instr} {t : Tc0} (h : i.wellFormed = true) (ht : i.tc0 = some t) {g : Nat} (hg : g < 4) :
    (encode i).ctrl.toNat / 2 ^ (24 + g) % 2 = (skipBit (Ref.entry t g)).toNat := by
  obtain ⟨-, -, halpha, hbeta⟩ := Instr.operands_range h
  have hk := kindCode_lt i.kind
  have hd := dirCode_lt i.dir
  have hhigh : (encode i).ctrl.toNat / 2 ^ 24 = (skipField t).toNat := by
    rw [encode_ctrl_toNat h, Instr.skip_of_some ht]
    omega
  rw [Nat.pow_add, ← Nat.div_div_eq_div_mul, hhigh, skipField_bit t hg]

theorem decodeTc0_encode {i : Instr} {t : Tc0} (h : i.wellFormed = true) (ht : i.tc0 = some t) :
    decodeTc0 (encode i) = t := by
  have hwf := Instr.tc0_wellFormed h ht
  refine Tc0.ext_entry fun g hg => ?_
  have hrange := Tc0.wellFormed_iff.1 hwf g hg
  rw [entry_decodeTc0 _ hg, decodeTc0Entry_eq, encode_skip_bit h ht hg, encode_tc0_of_some ht, encodeTc0_byte hwf hg,
    skipBit_toNat]
  by_cases hskip : Ref.entry t g = -1
  · rw [if_pos hskip, hskip]
    rfl
  · rw [if_neg hskip, if_neg (by decide)]
    omega

/-- Settles O1: the reserved fields are 0, and kind, form, operands and tc0 list each come back. -/
theorem decodeOfEncodeIsIdentity : Obligations.DecodeOfEncodeIsIdentity := by
  intro i h
  rw [decode_of_legal (encode_legal h), kindOfCode_encode h, dirOfCode_encode h, decodeOperands_encode h,
    ofKind_parts fun t ht => decodeTc0_encode h ht]

/-! ## What a decoded command holds -/

/-- Settles O2: the operands of a decoded command are those of `decodeOperands`. -/
theorem decodedOperandsAreTheFields : Obligations.DecodedOperandsAreTheFields := by
  intro d i h
  obtain ⟨-, -, halpha, hbeta⟩ := EdgeOperands.wellFormed_iff.1 (decodeOperands_wellFormed d)
  rw [decode_operands h]
  exact ⟨decodeOperands_alpha d, decodeOperands_beta d, halpha, hbeta, rfl, decodeOperands_stride d⟩

/-- Settles O3: an entry is what `decodeTc0Entry` reads, and the groups are the quotients of the Line numbers. -/
theorem decodedTc0IsTheSourceSet : Obligations.DecodedTc0IsTheSourceSet := by
  refine ⟨fun d i t h ht g hg => ?_, fun t j hj => ?_, fun t j hj => ?_⟩
  · rw [decode_tc0 h ht, entry_decodeTc0 d hg]
    exact ⟨decodeTc0Entry_eq d g, decodeTc0Entry_range d g⟩
  · exact congrArg some (tc0Entry_eq_entry t (show j / 4 < 4 by omega))
  · exact congrArg some (tc0Entry_eq_entry t (show j / 2 < 4 by omega))

theorem wellFormed_of_decode {d : Descriptor} {i : Instr} (h : decode d = .ok i) : i.wellFormed = true := by
  rw [Instr.wellFormed_iff, decode_operands h]
  refine ⟨decodeOperands_wellFormed d, fun t ht => ?_⟩
  rw [decode_tc0 h ht]
  exact decodeTc0_wellFormed d

/-- Settles O4: the fields' widths are the operands' ranges. -/
theorem decodedCommandsAreWellFormed : Obligations.DecodedCommandsAreWellFormed :=
  fun _ _ h => wellFormed_of_decode h

/-- Settles O5: the masked bits are the codes of the kind and the form, with both reserved fields 0. -/
theorem opcodeMapSelectsTheCommand : Obligations.OpcodeMapSelectsTheCommand := by
  intro k dir d h
  have hbits : d.ctrl.toNat / 2 ^ 28 * 2 ^ 28 + d.ctrl.toNat % 2 ^ 8 = (dirCode dir).toNat * 4 + (kindCode k).toNat := by
    rw [← masked_toNat, ← opcodePattern_toNat]
    exact congrArg BitVec.toNat h
  have hk := kindCode_lt k
  have hd := dirCode_lt dir
  have hlegal : LegalCtrl d.ctrl := by
    constructor <;> omega
  have hkind : d.ctrl.toNat % 4 = (kindCode k).toNat := by omega
  have hdir : d.ctrl.toNat / 4 % 2 = (dirCode dir).toNat := by omega
  refine ⟨_, decode_of_legal hlegal, ?_, ?_⟩
  · rw [ofKind_kind, hkind, kindOfCode_kindCode]
  · rw [ofKind_dir, hdir, dirOfCode_dirCode]

/-- R253: a GO refuses a reserved encoding before it looks at anything else. -/
theorem go_of_reserved {s : State} {e : Nat} {eng : Engine} (h : decode eng.staged = .error .reservedEncoding) :
    go e eng s = .refused .reservedEncoding := by
  unfold go
  simp only [h]

/-- Settles O6: no row matches exactly where a reserved field is not 0, which the GO asks first. -/
theorem reservedEncodingsAreRefused : Obligations.ReservedEncodingsAreRefused := by
  refine ⟨fun d => decode_error_iff, fun s e v rest eng ho hi he hb hr => ?_⟩
  rw [step_go_idle ho hi he hb, go_of_reserved (decode_error_iff.2 hr)]

/-! ## The fields that are read -/

/-- `CMD_CTRL` outside `SKIP`, as a number: bits 31..28 and 23..0. -/
theorem maskedSkip_toNat (w : Word) :
    (w &&& 0xF0FFFFFF#32).toNat = w.toNat / 2 ^ 28 * 2 ^ 28 + w.toNat % 2 ^ 24 := by
  have hm : (4043309055 : Nat) = 15 <<< 28 ||| (2 ^ 24 - 1) := by decide
  have hhigh : w.toNat &&& 15 <<< 28 = w.toNat / 2 ^ 28 * 2 ^ 28 := by
    rw [and_shiftLeft, show (15 : Nat) = 2 ^ 4 - 1 from rfl, Nat.and_two_pow_sub_one_eq_mod, Nat.shiftRight_eq_div_pow,
      Nat.shiftLeft_eq, Nat.mod_eq_of_lt (by have := w.isLt; omega)]
  show w.toNat &&& 4043309055 = _
  rw [hm, Nat.and_or_distrib_left, hhigh, Nat.and_two_pow_sub_one_eq_mod]
  exact or_eq_add (n := 28) (by omega) (by omega)

theorem maskedSkip_eq_iff {v w : Word} : v &&& 0xF0FFFFFF#32 = w &&& 0xF0FFFFFF#32 ↔
    v.toNat / 2 ^ 28 = w.toNat / 2 ^ 28 ∧ v.toNat % 2 ^ 24 = w.toNat % 2 ^ 24 := by
  rw [← BitVec.toNat_inj, maskedSkip_toNat, maskedSkip_toNat]
  omega

/-- Settles O7: what differs is the tc0 list, which an odd `KIND` does not take. -/
theorem intraCommandsIgnoreTc0 : Obligations.IntraCommandsIgnoreTc0 := by
  intro d d' hodd hctrl haddr hstride
  obtain ⟨hhigh, hlow⟩ := maskedSkip_eq_iff.1 hctrl
  have hops : decodeOperands d = decodeOperands d' := by
    refine (EdgeOperands.mk.injEq ..).mpr ⟨by rw [haddr], by rw [hstride], ?_, ?_⟩ <;> rw [field_eq, field_eq] <;> omega
  have hkind : d'.ctrl.toNat % 4 = d.ctrl.toNat % 4 := by omega
  have hdir : d'.ctrl.toNat / 4 % 2 = d.ctrl.toNat / 4 % 2 := by omega
  by_cases hl : LegalCtrl d.ctrl
  · have hl' : LegalCtrl d'.ctrl := by
      obtain ⟨h3, h28⟩ := hl
      constructor <;> omega
    rw [decode_of_legal hl, decode_of_legal hl', hkind, hdir, hops, ofKind_of_odd hodd]
  · have hl' : ¬LegalCtrl d'.ctrl := fun ⟨h3, h28⟩ => hl (by constructor <;> omega)
    rw [decode_of_not_legal hl, decode_of_not_legal hl']

/-! ## Encoding a decoded command -/

/-- A `TCV` is never the sentinel, so the encoder's skip bit is the descriptor's. -/
theorem skipBit_decodeTc0Entry (d : Descriptor) (g : Nat) :
    (skipBit (decodeTc0Entry d g)).toNat = d.ctrl.toNat / 2 ^ (24 + g) % 2 := by
  rw [decodeTc0Entry_eq, skipBit_toNat]
  by_cases hskip : d.ctrl.toNat / 2 ^ (24 + g) % 2 = 1
  · rw [if_pos hskip, if_pos rfl, hskip]
  · rw [if_neg hskip, if_neg (by omega)]
    omega

theorem skipField_decodeTc0 (d : Descriptor) : (skipField (decodeTc0 d)).toNat = d.ctrl.toNat / 2 ^ 24 % 16 := by
  rw [skipField_eq_sum]
  simp only [decodeTc0, skipBit_decodeTc0Entry]
  omega

/-- `CMD_CTRL` of a re-encoded command: its own `SKIP`, and every field below as it was. -/
theorem encode_ctrl_of_decode {d : Descriptor} {i : Instr} (h : decode d = .ok i) :
    (encode i).ctrl.toNat = i.skip.toNat * 2 ^ 24 + d.ctrl.toNat % 2 ^ 24 := by
  obtain ⟨h3, h28⟩ := (decode_ok h).1
  rw [encode_ctrl_toNat (wellFormed_of_decode h), decode_kind h, decode_dir h, decode_operands h, decodeOperands_alpha,
    decodeOperands_beta, kindCode_kindOfCode (by omega), dirCode_dirOfCode (by omega), Int.toNat_natCast,
    Int.toNat_natCast]
  omega

theorem encode_addr_of_decode {d : Descriptor} {i : Instr} (h : decode d = .ok i) : (encode i).addr = d.addr := by
  have haddr := encode_addr_toNat (wellFormed_of_decode h)
  rw [decode_operands h] at haddr
  exact BitVec.eq_of_toNat_eq (Int.ofNat.inj haddr)

theorem encode_stride_of_decode {d : Descriptor} {i : Instr} (h : decode d = .ok i) : (encode i).stride = d.stride := by
  have hstride := encode_stride_toInt (wellFormed_of_decode h)
  rw [decode_operands h] at hstride
  exact BitVec.eq_of_toInt_eq hstride

/-- Settles O9: `SKIP` and the live `TCV` fields come back through the tc0 list, the rest through the operands. -/
theorem reencodingKeepsTheReadFields : Obligations.ReencodingKeepsTheReadFields := by
  intro d i h
  obtain ⟨h3, h28⟩ := (decode_ok h).1
  have hctrl := encode_ctrl_of_decode h
  have hskip := i.skip_lt
  refine ⟨encode_addr_of_decode h, encode_stride_of_decode h, maskedSkip_eq_iff.2 (by omega), fun hsome => ?_⟩
  obtain ⟨t, ht⟩ := Option.isSome_iff_exists.1 hsome
  have htd := decode_tc0 h ht
  constructor
  · rw [Instr.skip_of_some ht, htd, skipField_decodeTc0] at hctrl
    exact BitVec.eq_of_toNat_eq (by omega)
  · intro g hg hlive
    rw [encode_tc0_of_some ht, htd, encodeTc0_byte (decodeTc0_wellFormed d) hg, entry_decodeTc0 d hg, decodeTc0Entry_eq,
      hlive]
    rfl

/-! ## The assembler -/

theorem assemble_of_wellFormed {i : Instr} (h : i.wellFormed = true) : assemble i = some (encode i) := if_pos h

theorem assemble_of_illFormed {i : Instr} (h : i.wellFormed = false) : assemble i = none := by
  rw [assemble, h]
  rfl

theorem skipField_cast (t : Tc0) : ((skipField t).toNat : Int) =
    Ref.flag (t.t0 = -1) + 2 * Ref.flag (t.t1 = -1) + 4 * Ref.flag (t.t2 = -1) + 8 * Ref.flag (t.t3 = -1) := by
  have hbit : ∀ v : Int, ((skipBit v).toNat : Int) = Ref.flag (v = -1) := fun v => by
    rw [skipBit_toNat, Ref.flag, Nat.cast_ite]
    rfl
  rw [← hbit, ← hbit, ← hbit, ← hbit, skipField_eq_sum]
  push_cast
  ring

theorem encodeTc0_cast {t : Tc0} (h : t.wellFormed = true) : ((encodeTc0 t).toNat : Int) =
    max t.t3 0 * 2 ^ 24 + max t.t2 0 * 2 ^ 16 + max t.t1 0 * 2 ^ 8 + max t.t0 0 := by
  rw [encodeTc0_toNat h]
  push_cast [Int.ofNat_toNat]
  rfl

/-- Settles O8: the words are the encoder's, each the sum of its fields. -/
theorem assembledWords : Obligations.AssembledWords := by
  refine ⟨fun i h => assemble_of_illFormed h, fun i h => ⟨encode i, assemble_of_wellFormed h, ?_, ?_,
    encode_addr_toNat h, encode_stride_toNat i⟩⟩
  · obtain ⟨-, -, halpha, hbeta⟩ := Instr.operands_range h
    rw [encode_ctrl_toNat h]
    push_cast
    rw [Int.toNat_of_nonneg halpha.1, Int.toNat_of_nonneg hbeta.1]
    congr 4
    · cases ht : i.tc0 with
      | none => simp [Instr.skip, ht]
      | some t => rw [Instr.skip_of_some ht, skipField_cast]
    · cases i.dir <;> rfl
    · cases i.kind <;> rfl
  · cases ht : i.tc0 with
    | none => rw [encode_tc0_of_none ht]; rfl
    | some t => rw [encode_tc0_of_some ht, encodeTc0_cast (Instr.tc0_wellFormed h ht)]

/-- Settles O10: the two lines of R100 run through the assembler. -/
theorem workedAssemblerLines : Obligations.WorkedAssemblerLines := by
  constructor <;> decide

/-- Settles O11: the decoder run on each vector. -/
theorem specWordsDecode : Obligations.SpecWordsDecode := by
  refine ⟨?_, ?_, ?_, ?_, ?_, ?_, ?_⟩ <;> decide

end Sys2Proof
end

section
/-! Issuing a command by the host's moves (30_encoding R98, 70_reset_and_hazards R282). -/

namespace Sys2Proof.Machine

theorem setEngine_self {s : State} {e : Nat} {eng : Engine} (he : s.engines[e]? = some eng) : s.setEngine e eng = s := by
  obtain ⟨hlt, rfl⟩ := List.getElem?_eq_some_iff.1 he
  rw [State.setEngine, List.set_getElem_self]

theorem setEngine_setEngine (s : State) (e : Nat) (eng eng' : Engine) :
    (s.setEngine e eng).setEngine e eng' = s.setEngine e eng' := by
  simp only [State.setEngine, List.set_set]

/-- An engine after a list of writes to its descriptor registers. -/
def stageWrites (eng : Engine) (ws : List (RegIndex × Word)) : Engine :=
  ws.foldl (fun eng w => stageWrite eng w.1 w.2) eng

/-- R34 to R37: the host's register writes, first in line, are all staged on their engine; `k` more steps follow. -/
theorem run_stagingWrites {e : Nat} {rest : List Input} (k : Nat) (ws : List (RegIndex × Word))
    (hws : ∀ w ∈ ws, w.1 ≠ .status) {s : State} {eng : Engine} (ho : s.outcome = .ok) (he : s.engines[e]? = some eng)
    (hi : s.inputs = ws.map (fun w => .write e w.1 w.2) ++ rest) :
    Host.Core.run core (k + ws.length) s =
      Host.Core.run core k (State.setEngine { s with inputs := rest } e (stageWrites eng ws)) := by
  induction ws generalizing s eng with
  | nil =>
    have hs : ({ s with inputs := rest } : State) = s := by rw [← show s.inputs = rest from hi]
    rw [hs, stageWrites, List.foldl_nil, setEngine_self he]
    rfl
  | cons w ws ih =>
    obtain ⟨hw, hws⟩ := List.forall_mem_cons.1 hws
    have hstep := step_stagingWrite ho hw hi he
    have hrun := ih hws (s := State.setEngine { s with inputs := ws.map (fun w => .write e w.1 w.2) ++ rest } e
      (stageWrite eng w.1 w.2)) ho (setEngine_getElem?_self _ he) rfl
    exact ((run_succ_of_next hstep).trans hrun).trans
      (congrArg (Host.Core.run core k) (setEngine_setEngine { s with inputs := rest } e _ _))

theorem setEngine_idle {s : State} {e : Nat} {eng : Engine} (hidle : ∀ eng ∈ s.engines, eng.busy = false)
    (hb : eng.busy = false) : ∀ eng' ∈ (s.setEngine e eng).engines, eng'.busy = false := by
  intro eng' h
  rcases List.mem_or_eq_of_mem_set h with h | rfl
  · exact hidle eng' h
  · exact hb

/-- The four register writes of `issue`. -/
def descriptorWrites (d : Descriptor) : List (RegIndex × Word) :=
  [(.cmdCtrl, d.ctrl), (.cmdTc0, d.tc0), (.cmdAddr, d.addr), (.cmdStride, d.stride)]

theorem issue_eq (e : Nat) (i : Instr) : issue e i =
    (descriptorWrites (encode i)).map (fun w => .write e w.1 w.2) ++ [.write e .status 0#32] := rfl

theorem descriptorWrites_ne_status (d : Descriptor) : ∀ w ∈ descriptorWrites d, w.1 ≠ .status := by
  simp [descriptorWrites]

theorem stageWrites_descriptorWrites (eng : Engine) (d : Descriptor) :
    stageWrites eng (descriptorWrites d) = { eng with staged := d, wr := ⟨true, true, true, true⟩ } := rfl

/-- Settles O21: the four writes stage the words, which decode to the command, so the GO latches them. -/
theorem issuedCommandIsInFlight : Obligations.IssuedCommandIsInFlight := by
  intro s e i rest ho hlen hidle hwf hi
  have he : s.engines[e]? = some s.engines[e] := List.getElem?_eq_getElem hlen
  have hb : s.engines[e].busy = false := hidle _ (List.getElem_mem hlen)
  have hwrites := run_stagingWrites 1 (descriptorWrites (encode i)) (descriptorWrites_ne_status _) ho he
    (by rw [hi, issue_eq, List.append_assoc])
  rw [stageWrites_descriptorWrites] at hwrites
  have hstaged := setEngine_getElem?_self (s := { s with inputs := .write e .status 0#32 :: rest })
    { s.engines[e] with staged := encode i, wr := ⟨true, true, true, true⟩ } he
  have hgo := step_go_latches (s := State.setEngine { s with inputs := .write e .status 0#32 :: rest } e _) ho rfl
    hstaged hb (decodeOfEncodeIsIdentity i hwf) rfl
    (sharingEngine_of_all_idle (setEngine_idle (s := { s with inputs := rest }) hidle hb))
  exact ⟨_, hwrites.trans (run_one_of_next hgo), rfl, rfl, ho, _, setEngine_getElem?_self _ hstaged, rfl, rfl⟩

end Sys2Proof.Machine
end

section
/-! The mask unit (40_mask_unit): its flags as the threshold tests, and that a Line it does not enable keeps its samples. -/

namespace Sys2Proof.Machine

open Sys2Proof.Safety

/-! ## The threshold tests -/

/-- R120. -/
theorem filterEdge_iff {l : Line} {alpha beta : Int} : filterEdge l alpha beta = true ↔
    |zext8 l.p0 - zext8 l.q0| < alpha ∧ |zext8 l.p1 - zext8 l.p0| < beta ∧ |zext8 l.q1 - zext8 l.q0| < beta := by
  simp only [filterEdge, absInt_eq_abs, Bool.and_eq_true, decide_eq_true_eq, and_assoc]

/-- R121. -/
theorem softP_iff {l : Line} {beta : Int} : softP l beta = true ↔ |zext8 l.p2 - zext8 l.p0| < beta := by
  simp only [softP, absInt_eq_abs, decide_eq_true_eq]

/-- R121. -/
theorem softQ_iff {l : Line} {beta : Int} : softQ l beta = true ↔ |zext8 l.q2 - zext8 l.q0| < beta := by
  simp only [softQ, absInt_eq_abs, decide_eq_true_eq]

theorem asr_two (v : Int) : asr v 2 = v / 4 := rfl

/-- R160. -/
theorem smallGap_iff {l : Line} {alpha : Int} :
    smallGap l alpha = true ↔ |zext8 l.p0 - zext8 l.q0| < alpha / 4 + 2 := by
  simp only [smallGap, absInt_eq_abs, asr_two, decide_eq_true_eq]

/-- Settles O34: each flag is its strict test on the zero-extended samples. -/
theorem maskFlagsAreTheThresholdTests : Obligations.MaskFlagsAreTheThresholdTests :=
  fun _ _ _ => ⟨filterEdge_iff, softP_iff, softQ_iff, smallGap_iff⟩

/-- R123: no absolute value is below 0. -/
theorem filterEdge_of_zero (l : Line) {alpha beta : Int} (h : alpha = 0 ∨ beta = 0) : filterEdge l alpha beta = false := by
  rw [Bool.eq_false_iff, Ne, filterEdge_iff]
  rintro ⟨halpha, hbeta, -⟩
  rcases h with rfl | rfl
  · exact absurd halpha (abs_nonneg _).not_gt
  · exact absurd hbeta (abs_nonneg _).not_gt

/-! ## Lines that are not enabled -/

@[simp] theorem sel_false (a b : Byte) : sel false a b = b := rfl

/-- R125: whatever the unit, a Line with `en` 0 keeps all its samples. -/
theorem filterLine_of_disabled (f : Filter) {fl : LineFlags} (h : fl.en = false) (j : Nat) (l : Line) :
    filterLine f fl j l = l := by
  cases f with
  | luma t => simp only [filterLine, lumaNormalLine, h, Bool.false_and, sel_false]
  | lumaIntra => simp only [filterLine, lumaStrongLine, h, Bool.false_and, sel_false]
  | chroma t => simp only [filterLine, chromaNormalLine, h, sel_false]
  | chromaIntra => simp only [filterLine, chromaStrongLine, h, sel_false]

/-- R125: the mask unit enables Line j of the command, with the samples the plane holds. -/
def lineEnabled (c : Command) (m : Memory) (j : Nat) : Bool :=
  lineEnable (filterEdge (planeLine c m j) c.ops.alpha c.ops.beta) (lineTc0 c.filter j)

/-- R125: a command keeps every sample of a Line that is not enabled. -/
theorem memRead_completed_of_disabled {c : Command} {s : State} (h : Performable s.plane c) {j : Nat}
    (hen : lineEnabled c s.mem j = false) {p : Pos} (hj : j < lineCount c.filter.kind) (hp : p ∈ kReq c.filter.kind) :
    memRead (completed c s).mem (siteAddr c j p).toNat = memRead s.mem (siteAddr c j p).toNat := by
  rw [memRead_completed h hj hp]
  split
  · rename_i hw
    rw [lineResult, filterLine_of_disabled _ hen, planeLine, gatherLine_get _ _ _ _ (kWrite_subset_kRead hw)]
  · rfl

/-- A command that enables none of its Lines leaves the plane's samples as they are. -/
theorem memRead_completed_of_all_disabled {c : Command} {s : State} (h : Performable s.plane c)
    (hen : ∀ j < lineCount c.filter.kind, lineEnabled c s.mem j = false) (a : Nat) :
    memRead (completed c s).mem a = memRead s.mem a := by
  by_cases hsite : ∃ j < lineCount c.filter.kind, ∃ p ∈ kWrite c.filter.kind, (siteAddr c j p).toNat = a
  · obtain ⟨j, hj, p, hp, rfl⟩ := hsite
    exact memRead_completed_of_disabled h (hen j hj) hj ((kWrite_sublist _).subset hp)
  · rw [completed_mem]
    exact memRead_commandStores_ne _ _ fun j hj p hp ha => hsite ⟨j, hj, p, hp, ha⟩

/-! ## The two causes -/

theorem lineEnable_of_not_edge (tc : Option Int) : lineEnable false tc = false := by
  cases tc <;> rfl

theorem lineEnable_sentinel (fe : Bool) : lineEnable fe (some (-1)) = false :=
  Bool.and_false fe

theorem groupOf_lt {k : Kind} {j : Nat} (h : j < lineCount k) : groupOf k j < 4 := by
  cases k <;> simp only [lineCount, groupOf, Config.lumaLines, Config.chromaLines, Config.lumaGroupLines,
    Config.chromaGroupLines] at h ⊢ <;> omega

theorem lineTc0_commandOf {i : Instr} {t : Tc0} (ht : i.tc0 = some t) (j : Nat) :
    lineTc0 (commandOf i).filter j = some (tc0Entry t (groupOf i.kind j)) := by
  cases i <;> cases ht <;> rfl

/-- Settles O31: `filterEdge` 0 disables every Line. -/
theorem disabledEdgeChangesNothing : Obligations.DisabledEdgeChangesNothing := by
  intro i s hzero hperf
  refine ⟨fun l => filterEdge_of_zero l hzero, _, exec_of_performable hperf,
    memRead_completed_of_all_disabled hperf fun j _ => ?_⟩
  rw [lineEnabled, commandOf_ops, filterEdge_of_zero _ hzero, lineEnable_of_not_edge]

/-- Settles O32: the sentinel disables the Lines of its group. -/
theorem sentinelGroupKeepsItsLines : Obligations.SentinelGroupKeepsItsLines := by
  intro i t s u j ht hj hsentinel hexec p hp
  rw [exec_eq_perform] at hexec
  obtain ⟨hperf, rfl⟩ := perform_next hexec
  have hen : lineEnabled (commandOf i) s.mem j = false := by
    rw [lineEnabled, lineTc0_commandOf ht, tc0Entry_eq_entry t (groupOf_lt hj), hsentinel, lineEnable_sentinel]
  rw [← commandOf_kind] at hj hp
  exact memRead_completed_of_disabled hperf hen hj hp

end Sys2Proof.Machine
end

section
/-! The datapaths of the filter units on one Line (41_luma_normal to 44_chroma_strong): the ranges of the computed values, the
exchange of the two sides, and Lines of equal samples. -/

namespace Sys2Proof.Machine

theorem asr_one (v : Int) : asr v 1 = v / 2 := rfl

theorem asr_three (v : Int) : asr v 3 = v / 8 := rfl

/-! ## The ranges of the computed values -/

/-- R142. -/
theorem rawDelta_range (l : Line) : -159 ≤ rawDelta l ∧ rawDelta l ≤ 159 := by
  have hp0 := zext8_bounds l.p0
  have hp1 := zext8_bounds l.p1
  have hq0 := zext8_bounds l.q0
  have hq1 := zext8_bounds l.q1
  rw [rawDelta, asr_three]
  omega

theorem centreMean_range (l : Line) : 0 ≤ centreMean l ∧ centreMean l ≤ 255 := by
  have hp0 := zext8_bounds l.p0
  have hq0 := zext8_bounds l.q0
  rw [centreMean, asr_one]
  omega

/-- Clipping to an interval about 0 leaves a value between 0 and itself. -/
theorem clip_between_zero {t : Int} (ht : 0 ≤ t) (v : Int) : min 0 v ≤ clip v (-t) t ∧ clip v (-t) t ≤ max 0 v := by
  unfold clip
  omega

/-- R144, R145: the unclipped step leads to the mean of `outer` and `mean`, so a part of it stays within their range. -/
theorem secondSample_range {t outer second mean : Int} (ht : 0 ≤ t) (ho : 0 ≤ outer ∧ outer ≤ 255)
    (hs : 0 ≤ second ∧ second ≤ 255) (hm : 0 ≤ mean ∧ mean ≤ 255) :
    0 ≤ secondSample t outer second mean ∧ secondSample t outer second mean ≤ 255 := by
  have hstep := clip_between_zero ht (asr (outer + mean - 2 * second) 1)
  have htarget : asr (outer + mean - 2 * second) 1 = (outer + mean) / 2 - second := by
    rw [asr_one]
    omega
  rw [htarget] at hstep
  rw [secondSample, htarget]
  omega

/-- R163 to R166, R191: the weights of each average sum to its divisor. -/
theorem average_ranges {a b c d e : Int} (ha : 0 ≤ a ∧ a ≤ 255) (hb : 0 ≤ b ∧ b ≤ 255) (hc : 0 ≤ c ∧ c ≤ 255)
    (hd : 0 ≤ d ∧ d ≤ 255) (he : 0 ≤ e ∧ e ≤ 255) :
    (0 ≤ strongCentre a b c d e ∧ strongCentre a b c d e ≤ 255) ∧
    (0 ≤ strongSecond a b c d ∧ strongSecond a b c d ≤ 255) ∧
    (0 ≤ strongThird a b c d e ∧ strongThird a b c d e ≤ 255) ∧
    (0 ≤ weakCentre a b c ∧ weakCentre a b c ≤ 255) := by
  simp only [strongCentre, strongSecond, strongThird, weakCentre, asr_two, asr_three]
  omega

/-- Settles O35: each range from the ranges of the samples it is computed from. -/
theorem computedValuesStayInRange : Obligations.ComputedValuesStayInRange :=
  fun l a b c d e _ ht => ⟨rawDelta_range l,
    secondSample_range ht (zext8_bounds a) (zext8_bounds b) (centreMean_range l),
    average_ranges (zext8_bounds a) (zext8_bounds b) (zext8_bounds c) (zext8_bounds d) (zext8_bounds e)⟩

/-! ## The bound of an enabled Line -/

/-- R93: the entry that governs a Line is the sentinel or not negative. -/
theorem tc0Entry_sentinel_or_nonneg {t : Tc0} (h : t.wellFormed = true) (g : Nat) :
    tc0Entry t g = -1 ∨ 0 ≤ tc0Entry t g := by
  have hentry : tc0Entry t g = Ref.entry t (min g 3) := by
    match g with
    | 0 | 1 | 2 => rfl
    | g + 3 => rw [Nat.min_eq_right (Nat.le_add_left 3 g)]; rfl
  have hrange := Tc0.wellFormed_iff.1 h (min g 3) (by omega)
  omega

/-- The filter's tc0 list, where it has one, is legal. -/
def Filter.LegalTc0 (f : Filter) : Prop :=
  ∀ t, f = .luma t ∨ f = .chroma t → t.wellFormed = true

theorem Filter.legalTc0_luma {t : Tc0} (h : t.wellFormed = true) : (Filter.luma t).LegalTc0 := by
  rintro u (hu | hu) <;> cases hu
  exact h

theorem Filter.legalTc0_chroma {t : Tc0} (h : t.wellFormed = true) : (Filter.chroma t).LegalTc0 := by
  rintro u (hu | hu) <;> cases hu
  exact h

theorem lineTc0_sentinel_or_nonneg {f : Filter} {j : Nat} {t : Int} (h : f.LegalTc0) (ht : lineTc0 f j = some t) :
    t = -1 ∨ 0 ≤ t := by
  cases f with
  | luma u => cases ht; exact tc0Entry_sentinel_or_nonneg (h u (.inl rfl)) _
  | lumaIntra => cases ht
  | chroma u => cases ht; exact tc0Entry_sentinel_or_nonneg (h u (.inr rfl)) _
  | chromaIntra => cases ht

/-- R125: the sentinel disables its Lines, so an enabled Line's tc0 is a bound to clip to. -/
theorem lineTc0_nonneg_of_enabled {c : Command} {j : Nat} {l : Line} {old : LineFlags} {t : Int} (h : c.filter.LegalTc0)
    (hen : (lineFlags c j l old).en = true) (ht : lineTc0 c.filter j = some t) : 0 ≤ t := by
  refine (lineTc0_sentinel_or_nonneg h ht).resolve_left fun hsentinel => ?_
  rw [lineFlags, ht, hsentinel, lineEnable_sentinel] at hen
  cases hen

theorem lumaClipBound_nonneg {t : Int} (ht : 0 ≤ t) (f : LineFlags) : 0 ≤ lumaClipBound f t := by
  have hflag (b : Bool) : 0 ≤ boolInt b := by cases b <;> decide
  exact Int.add_nonneg (Int.add_nonneg ht (hflag _)) (hflag _)

/-! ## The exchange of the two sides -/

/-- The flags of a Line with its p and q sides exchanged. -/
def LineFlags.mirror (f : LineFlags) : LineFlags :=
  { f with ap := f.aq, aq := f.ap }

theorem filterEdge_mirror (l : Line) (alpha beta : Int) : filterEdge (Ref.mirror l) alpha beta = filterEdge l alpha beta := by
  rw [Bool.eq_iff_iff, filterEdge_iff, filterEdge_iff]
  simp only [Ref.mirror, abs_sub_comm (zext8 l.q0), and_comm]

theorem smallGap_mirror (l : Line) (alpha : Int) : smallGap (Ref.mirror l) alpha = smallGap l alpha := by
  rw [Bool.eq_iff_iff, smallGap_iff, smallGap_iff]
  simp only [Ref.mirror, abs_sub_comm (zext8 l.q0)]

theorem lineFlags_mirror (c : Command) (j : Nat) (l : Line) (old : LineFlags) :
    lineFlags c j (Ref.mirror l) old = (lineFlags c j l old).mirror := by
  simp only [lineFlags, filterEdge_mirror, smallGap_mirror]
  rfl

/-- R149 (e): the centre delta before rounding is not halfway between two integers. -/
def OffTie (l : Line) : Prop :=
  ((zext8 l.q0 - zext8 l.p0) * 4 + (zext8 l.p1 - zext8 l.q1)) % 8 ≠ 4

/-- Floor division rounds a half up on either side of 0; without a half it is odd. -/
theorem rawDelta_mirror {l : Line} (h : OffTie l) : rawDelta (Ref.mirror l) = -rawDelta l := by
  simp only [OffTie, rawDelta, Ref.mirror, asr_three] at h ⊢
  omega

theorem clip_neg {t : Int} (ht : 0 ≤ t) (v : Int) : clip (-v) (-t) t = -clip v (-t) t := by
  unfold clip
  omega

theorem centreDelta_mirror {l : Line} (h : OffTie l) {t : Int} (ht : 0 ≤ t) :
    centreDelta t (Ref.mirror l) = -centreDelta t l := by
  rw [centreDelta, rawDelta_mirror h, clip_neg ht, centreDelta]

theorem centreMean_mirror (l : Line) : centreMean (Ref.mirror l) = centreMean l := by
  simp only [centreMean, Ref.mirror, Int.add_comm (zext8 l.q0)]

theorem lumaClipBound_mirror (f : LineFlags) (t : Int) : lumaClipBound f.mirror t = lumaClipBound f t :=
  Int.add_right_comm _ _ _

theorem lumaNormalLine_mirror {l : Line} (h : OffTie l) {t : Int} (ht : 0 ≤ t) (f : LineFlags) :
    lumaNormalLine f.mirror t (Ref.mirror l) = Ref.mirror (lumaNormalLine f t l) := by
  simp only [lumaNormalLine, lumaClipBound_mirror, centreDelta_mirror h (lumaClipBound_nonneg ht f), centreMean_mirror,
    ← sub_eq_add_neg, sub_neg_eq_add]
  rfl

theorem chromaNormalLine_mirror {l : Line} (h : OffTie l) {t : Int} (ht : 0 ≤ t) (f : LineFlags) :
    chromaNormalLine f.mirror t (Ref.mirror l) = Ref.mirror (chromaNormalLine f t l) := by
  simp only [chromaNormalLine, centreDelta_mirror h ht, ← sub_eq_add_neg, sub_neg_eq_add]
  rfl

/-- R149 (e), R170 (e), R193 (b): the strong filters are written the same for both sides; the normal ones need the Line off
the tie and a bound that is not negative. -/
theorem filterLine_mirror {f : Filter} {j : Nat} {l : Line} (h : ∀ t, lineTc0 f j = some t → 0 ≤ t ∧ OffTie l)
    (fl : LineFlags) : filterLine f fl.mirror j (Ref.mirror l) = Ref.mirror (filterLine f fl j l) := by
  cases f with
  | luma t =>
    obtain ⟨ht, hl⟩ := h _ rfl
    exact lumaNormalLine_mirror hl ht fl
  | lumaIntra => rfl
  | chroma t =>
    obtain ⟨ht, hl⟩ := h _ rfl
    exact chromaNormalLine_mirror hl ht fl
  | chromaIntra => rfl

theorem lineResult_mirror {c : Command} {j : Nat} {l : Line} (hlegal : c.filter.LegalTc0)
    (hl : ∀ t, lineTc0 c.filter j = some t → OffTie l) (old : LineFlags) :
    lineResult c j old (Ref.mirror l) = Ref.mirror (lineResult c j old l) := by
  rw [lineResult, lineFlags_mirror, lineResult]
  cases hen : (lineFlags c j l old).en with
  | false =>
    have hmirror : (lineFlags c j l old).mirror.en = false := hen
    rw [filterLine_of_disabled _ hen, filterLine_of_disabled _ hmirror]
  | true => exact filterLine_mirror (fun t ht => ⟨lineTc0_nonneg_of_enabled hlegal hen ht, hl t ht⟩) _

/-- Settles O37: off the tie by `lineResult_mirror`. With p0 = 100, q0 = 101 on the tie the delta 1/2 rounds to 1, the
mirror image's -1/2 to 0: the Line's two centre samples change places and the mirror image's stay. -/
theorem normalFiltersMirrorOffTheTie : Obligations.NormalFiltersMirrorOffTheTie := by
  refine ⟨fun d o tc j f l hwf hoff => ⟨lineResult_mirror (Filter.legalTc0_luma hwf) (fun _ _ => hoff) f,
    lineResult_mirror (Filter.legalTc0_chroma hwf) (fun _ _ => hoff) f⟩,
    ⟨0, 64, 20, 10⟩, Ref.uniform 1, ⟨100#8, 100#8, 100#8, 100#8, 101#8, 100#8, 100#8, 100#8⟩, ?_, ?_, ?_, ?_⟩ <;> decide

/-! ## Lines of equal samples -/

theorem sel_self (b : Bool) (v : Byte) : sel b v v = v := ite_self v

theorem clip_zero {t : Int} (ht : 0 ≤ t) : clip 0 (-t) t = 0 :=
  clip_of_mem (Int.neg_nonpos_of_nonneg ht) ht

theorem centreDelta_smooth (v : Byte) {t : Int} (ht : 0 ≤ t) : centreDelta t (Ref.smooth v) = 0 := by
  have hraw : rawDelta (Ref.smooth v) = 0 := by
    simp only [rawDelta, Ref.smooth, Int.sub_self]
    rfl
  rw [centreDelta, hraw, clip_zero ht]

theorem centreMean_smooth (v : Byte) : centreMean (Ref.smooth v) = zext8 v := by
  simp only [centreMean, Ref.smooth, asr_one]
  omega

theorem secondSample_self {t : Int} (ht : 0 ≤ t) (v : Int) : secondSample t v v v = v := by
  rw [secondSample, ← Int.two_mul, Int.sub_self, show asr 0 1 = 0 from rfl, clip_zero ht, Int.add_zero]

theorem average_self (v : Int) : strongCentre v v v v v = v ∧ strongSecond v v v v = v ∧ strongThird v v v v v = v ∧
    weakCentre v v v = v := by
  simp only [strongCentre, strongSecond, strongThird, weakCentre, asr_two, asr_three]
  omega

/-- R149 (b), R170 (a), R193 (a): the normal filters move nothing by at most a bound that is not negative; the strong filters
take averages. -/
theorem filterLine_smooth {f : Filter} {j : Nat} (h : ∀ t, lineTc0 f j = some t → 0 ≤ t) (fl : LineFlags) (v : Byte) :
    filterLine f fl j (Ref.smooth v) = Ref.smooth v := by
  obtain ⟨hcentre, hsecond, hthird, hweak⟩ := average_self (zext8 v)
  cases f with
  | luma t =>
    have ht := h _ rfl
    simp only [filterLine, lumaNormalLine, centreDelta_smooth v (lumaClipBound_nonneg ht fl), centreMean_smooth]
    simp only [Ref.smooth, secondSample_self ht, Int.add_zero, Int.sub_zero, toSample_zext8, sel_self]
  | lumaIntra =>
    simp only [filterLine, lumaStrongLine, Ref.smooth, hcentre, hsecond, hthird, hweak, toSample_zext8, sel_self]
  | chroma t =>
    simp only [filterLine, chromaNormalLine, centreDelta_smooth v (h _ rfl)]
    simp only [Ref.smooth, Int.add_zero, Int.sub_zero, toSample_zext8, sel_self]
  | chromaIntra => simp only [filterLine, chromaStrongLine, Ref.smooth, hweak, toSample_zext8, sel_self]

/-- Settles O38: a disabled Line is kept by every unit, an enabled one by `filterLine_smooth`. -/
theorem smoothLinesAreUnchanged : Obligations.SmoothLinesAreUnchanged := by
  intro c j f v hlegal
  rw [lineResult]
  cases hen : (lineFlags c j (Ref.smooth v) f).en with
  | false => exact filterLine_of_disabled _ hen j _
  | true => exact filterLine_smooth (fun _ => lineTc0_nonneg_of_enabled hlegal hen) _ v

/-! ## The worked Lines -/

/-- Settles O39: the units run on each Line. -/
theorem workedLines : Obligations.WorkedLines := by
  refine ⟨?_, ?_, ?_, ?_⟩ <;> decide

end Sys2Proof.Machine
end

section
/-! The exchange of the two sides under the strong filters (42_luma_strong R170, 44_chroma_strong R193). -/

namespace Sys2Proof.Machine

/-- A command without tc0 neither rounds a signed delta nor clips to a bound, so its Lines need not be off the tie. -/
theorem lineResult_mirror_of_no_tc0 {c : Command} {j : Nat} (hnone : lineTc0 c.filter j = none) (old : LineFlags)
    (l : Line) : lineResult c j old (Ref.mirror l) = Ref.mirror (lineResult c j old l) := by
  have hvacuous (t : Int) (ht : lineTc0 c.filter j = some t) : 0 ≤ t ∧ OffTie l := by
    rw [hnone] at ht
    cases ht
  rw [lineResult, lineFlags_mirror, lineResult]
  exact filterLine_mirror hvacuous _

/-- Settles O36: the intra kinds have no tc0. -/
theorem strongFiltersAreMirrorSymmetric : Obligations.StrongFiltersAreMirrorSymmetric :=
  fun _ _ _ f l => ⟨lineResult_mirror_of_no_tc0 rfl f l, lineResult_mirror_of_no_tc0 rfl f l⟩

end Sys2Proof.Machine
end

section
/-! The chroma normal filter on a Line whose tc0 is 0 (43_chroma_normal R186 (a)). -/

namespace Sys2Proof.Machine

open Sys2Proof.Safety

theorem clip_zero_bound (v : Int) : clip v (-0) 0 = 0 :=
  min_eq_right (le_max_right v 0)

/-- The clip to the bound 0 takes the whole centre delta away. -/
theorem centreDelta_zero_bound (l : Line) : centreDelta 0 l = 0 :=
  clip_zero_bound _

/-- An enabled chroma Line with tc0 0 is written back as it is. -/
theorem chromaNormalLine_zero (f : LineFlags) (l : Line) : chromaNormalLine f 0 l = l := by
  simp only [chromaNormalLine, centreDelta_zero_bound, Int.add_zero, Int.sub_zero, toSample_zext8, sel_self]

/-- The second list puts the sentinel in the place of some zeros of the first and is equal to it elsewhere. -/
def SentinelForZero (t t' : Tc0) : Prop :=
  ∀ g < 4, Ref.entry t g = Ref.entry t' g ∨ (Ref.entry t g = 0 ∧ Ref.entry t' g = -1)

/-- Of each Line, the flags and the unit read the entry of its own group alone. -/
theorem lineResult_chroma_congr {t t' : Tc0} {j : Nat} (d : Dir) (o : EdgeOperands)
    (h : tc0Entry t (groupOf .chroma j) = tc0Entry t' (groupOf .chroma j)) (old : LineFlags) (l : Line) :
    lineResult ⟨.chroma t, d, o⟩ j old l = lineResult ⟨.chroma t', d, o⟩ j old l := by
  simp only [lineResult, filterLine, lineFlags, lineTc0, Filter.kind, h]

theorem lineResult_chroma_zero {t : Tc0} {j : Nat} (d : Dir) (o : EdgeOperands)
    (h : tc0Entry t (groupOf .chroma j) = 0) (old : LineFlags) (l : Line) :
    lineResult ⟨.chroma t, d, o⟩ j old l = l := by
  rw [lineResult, filterLine, h, chromaNormalLine_zero]

theorem lineResult_chroma_sentinel {t : Tc0} {j : Nat} (d : Dir) (o : EdgeOperands)
    (h : tc0Entry t (groupOf .chroma j) = -1) (old : LineFlags) (l : Line) :
    lineResult ⟨.chroma t, d, o⟩ j old l = l := by
  refine filterLine_of_disabled _ ?_ j l
  rw [lineFlags, lineTc0, h, lineEnable_sentinel]

/-- R186 (a) on one Line: a delta clipped to 0 on one side, a disabled Line on the other. -/
theorem lineResult_sentinelForZero {t t' : Tc0} (h : SentinelForZero t t') (d : Dir) (o : EdgeOperands) {j : Nat}
    (hj : j < lineCount .chroma) (old : LineFlags) (l : Line) :
    lineResult ⟨.chroma t, d, o⟩ j old l = lineResult ⟨.chroma t', d, o⟩ j old l := by
  have hg : groupOf .chroma j < 4 := groupOf_lt hj
  have hentry := h _ hg
  rw [← tc0Entry_eq_entry t hg, ← tc0Entry_eq_entry t' hg] at hentry
  rcases hentry with hsame | ⟨hzero, hsentinel⟩
  · exact lineResult_chroma_congr d o hsame old l
  · rw [lineResult_chroma_zero d o hzero, lineResult_chroma_sentinel d o hsentinel]

/-- Neither the sites nor the gather read tc0, so the stores are the same ones. -/
theorem commandStores_sentinelForZero {t t' : Tc0} (h : SentinelForZero t t') (d : Dir) (o : EdgeOperands)
    (m : Memory) (e : Engine) :
    commandStores ⟨.chroma t, d, o⟩ m e = commandStores ⟨.chroma t', d, o⟩ m e := by
  rw [commandStores_eq, commandStores_eq]
  refine List.map_congr_left fun x hx => ?_
  obtain ⟨j, hj, p, -, rfl⟩ := mem_sites.1 hx
  exact congrArg (fun l : Line => (_, l.get p)) (lineResult_sentinelForZero h d o hj _ _)

/-- Settles O33: the preconditions do not read tc0, and the two commands store the same samples. -/
theorem chromaZeroTc0ActsAsTheSentinel : Obligations.ChromaZeroTc0ActsAsTheSentinel := by
  intro o t t' s h
  have hmem (d : Dir) (a : Nat) : memRead (completed ⟨.chroma t, d, o⟩ s).mem a =
      memRead (completed ⟨.chroma t', d, o⟩ s).mem a := by
    rw [completed_mem, completed_mem, commandStores_sentinelForZero h]
  exact ⟨fun hp => ⟨_, _, exec_of_performable (i := .filterChromaV o t) hp,
      exec_of_performable (i := .filterChromaV o t') hp, hmem .vertical⟩,
    fun hp => ⟨_, _, exec_of_performable (i := .filterChromaH o t) hp,
      exec_of_performable (i := .filterChromaH o t') hp, hmem .horizontal⟩⟩

end Sys2Proof.Machine
end

section
/-! The optional transposition of the horizontal form (45_orientation_adapter R205 to R207): the scratch cells are distinct, the
twin reads the samples the command reads, so the two values of ORIENT_IMPL leave the same plane. -/

namespace Sys2Proof.Machine

/-! ## The scratch cells -/

theorem offset_range (p : Pos) : -4 ≤ p.offset ∧ p.offset < 4 := by
  cases p <;> decide

/-- R207: the twin's position k of Line j is the scratch cell that step 1 fills from it. -/
theorem siteAddr_verticalTwin (c : Command) (base pitch j : Nat) (p : Pos) :
    siteAddr (verticalTwin c base pitch) j p = (scratchAddr base pitch j p : Int) := by
  have hoffset : (((p.offset + 4).toNat : Nat) : Int) = p.offset + 4 :=
    Int.toNat_of_nonneg (by linarith [(offset_range p).1])
  rw [siteAddr_vertical rfl, scratchAddr]
  push_cast [hoffset]
  simp only [verticalTwin]
  ring

/-- From pitch 8 on, no two positions share a scratch cell. -/
theorem scratchAddr_inj {base pitch j j' : Nat} {p p' : Pos} (h : 8 ≤ pitch)
    (he : scratchAddr base pitch j p = scratchAddr base pitch j' p') : j = j' ∧ p = p' := by
  have hp := offset_range p
  have hp' := offset_range p'
  have hsum : (j : Int) * pitch + (p.offset + 4) = (j' : Int) * pitch + (p'.offset + 4) := by
    zify [scratchAddr] at he
    omega
  obtain ⟨hline, hoffset⟩ := eq_of_mul_add_eq (by rw [abs_lt, Nat.abs_cast]; omega) hsum
  exact ⟨by omega, offset_inj (by omega)⟩

section steps
variable (c : Command) (base : Nat) {pitch : Nat} (h : 8 ≤ pitch)
include h

/-- The footprint's sites have pairwise distinct scratch cells. -/
theorem scratchCells_distinct :
    (footprint c).Pairwise fun x y => scratchAddr base pitch x.line x.pos ≠ scratchAddr base pitch y.line y.pos :=
  (footprint_pairwise_before c).imp fun {x y} hbefore he => by
    obtain ⟨hline, hpos⟩ := scratchAddr_inj h he
    simp only [Site.Before, hline, hpos, lt_irrefl, and_false, or_self] at hbefore

/-! ## The three steps -/

/-- R207, step 1: the scratch cell of a footprint position holds the plane's sample at that position. -/
theorem memRead_transposeIn (m : Memory) {j : Nat} {p : Pos} (hj : j < lineCount c.filter.kind)
    (hp : p ∈ kReq c.filter.kind) :
    memRead (transposeIn c base pitch m) (scratchAddr base pitch j p) = memRead m (siteAddr c j p).toNat :=
  memRead_memWrites_of_mem (List.pairwise_map.2 (scratchCells_distinct c base h))
    (List.mem_map.2 ⟨_, mem_sites.2 ⟨j, hj, p, hp, rfl⟩, rfl⟩)

/-- R207: both paths pass the same Line block through the same unit. -/
theorem storedSample_verticalTwin (m : Memory) (e : Engine) {j : Nat} {p : Pos} (hj : j < lineCount c.filter.kind)
    (hp : p ∈ kWrite c.filter.kind) :
    storedSample (verticalTwin c base pitch) (transposeIn c base pitch m) e j p = storedSample c m e j p := by
  refine lineResult_congr c j _ _ (fun q hq => ?_) hp
  rw [gatherLine_get (verticalTwin c base pitch) _ j _ hq, gatherLine_get c m j _ hq, siteAddr_verticalTwin,
    Int.toNat_natCast, memRead_transposeIn c base h m hj ((kRead_sublist _).subset hq)]

theorem verticalTwin_stores_distinct (m : Memory) (e : Engine) :
    (commandStores (verticalTwin c base pitch) m e).Pairwise fun v w => v.1 ≠ w.1 := by
  have hcell : ∀ x ∈ sites (verticalTwin c base pitch) (kWrite c.filter.kind),
      x.addr.toNat = scratchAddr base pitch x.line x.pos := by
    intro x hx
    obtain ⟨j, -, p, -, rfl⟩ := mem_sites.1 hx
    rw [siteAddr_verticalTwin, Int.toNat_natCast]
  rw [commandStores_eq, List.pairwise_map]
  refine ((scratchCells_distinct _ base h).sublist (sites_sublist _ (kWrite_sublist _))).imp_of_mem
    fun {x y} hx hy hne => ?_
  rwa [hcell x hx, hcell y hy]

/-- R207, step 2: the scratch cell of a written position then holds what the command itself stores there. -/
theorem memRead_stridedPlane_verticalTwin (m : Memory) (e : Engine) {j : Nat} {p : Pos}
    (hj : j < lineCount c.filter.kind) (hp : p ∈ kWrite c.filter.kind) :
    memRead (stridedPlane (verticalTwin c base pitch) e (transposeIn c base pitch m)) (scratchAddr base pitch j p) =
      storedSample c m e j p := by
  rw [← storedSample_verticalTwin c base h m e hj hp, ← Int.toNat_natCast (scratchAddr base pitch j p),
    ← siteAddr_verticalTwin c]
  exact memRead_memWrites_of_mem (verticalTwin_stores_distinct c base h _ e)
    (mem_commandStores.2 ⟨j, hj, p, hp, rfl⟩)

/-- R206, R207, step 3: the two values of ORIENT_IMPL make the same stores, in the same order. -/
theorem planeAfter_transposed (e : Engine) (m : Memory) :
    planeAfter (.transposed base pitch) c e m = planeAfter .strided c e m := by
  show memWrites m _ = memWrites m (commandStores c m e)
  rw [commandStores_eq]
  refine congrArg (memWrites m) (List.map_congr_left fun x hx => ?_)
  obtain ⟨j, hj, p, hp, rfl⟩ := mem_sites.1 hx
  exact congrArg (Prod.mk _) (memRead_stridedPlane_verticalTwin c base h m e hj hp)

end steps

/-- Settles O42: the transposed path leaves the plane of the strided path, which is the command's own, whatever its form. -/
theorem transpositionIsUnobservable : Obligations.TranspositionIsUnobservable := by
  intro i s t base pitch _ hpitch hexec a
  rw [exec_eq_perform] at hexec
  obtain ⟨-, rfl⟩ := perform_next hexec
  rw [planeAfter_transposed _ base hpitch]
  rfl

end Sys2Proof.Machine
end

section
/-! The transient registers after a command (10_state R40 to R42, 45_orientation_adapter R202): the Line registers, flags and
parameters a completed command has loaded, each register by its own rule. -/

namespace Sys2Proof.Machine

/-! ## The register files -/

theorem lineCount_le_lumaLines (k : Kind) : lineCount k ≤ Config.lumaLines := by
  cases k <;> decide

/-- A Line below the command's count is rebuilt from what its register held. -/
theorem updateLines_getElem? {α : Type} {n j : Nat} (hn : n ≤ Config.lumaLines) (hj : j < n) (d : α) (f : Nat → α → α)
    (old : List α) : (updateLines n d f old)[j]? = some (f j (old.getD j d)) := by
  simp only [updateLines, List.getElem?_map, List.getElem?_range (hj.trans_le hn), Option.map_some, if_pos hj]

section registers
variable (c : Command) {j : Nat} (hj : j < lineCount c.filter.kind)
include hj

theorem gatherLines_getElem? (m : Memory) (old : List Line) :
    (gatherLines c m old)[j]? = some (gatherLine c m j (old.getD j zeroLine)) :=
  updateLines_getElem? (lineCount_le_lumaLines _) hj _ _ _

theorem gatherFlags_getElem? (lines : List Line) (old : List LineFlags) :
    (gatherFlags c lines old)[j]? = some (lineFlags c j (lines.getD j zeroLine) (old.getD j zeroFlags)) :=
  updateLines_getElem? (lineCount_le_lumaLines _) hj _ _ _

/-- R41: the flags of a Line are those of its registers after the gather. -/
theorem gatherFlags_gatherLines_getElem? (m : Memory) (lines : List Line) (old : List LineFlags) :
    (gatherFlags c (gatherLines c m lines) old)[j]? =
      some (lineFlags c j (gatherLine c m j (lines.getD j zeroLine)) (old.getD j zeroFlags)) := by
  rw [gatherFlags_getElem? c hj, List.getD_eq_getElem?_getD, gatherLines_getElem? c hj, Option.getD_some]

end registers

/-! ## The flags of a Line -/

/-- R125: a Line is enabled by `filterEdge` unless its tc0 is the sentinel. -/
theorem lineEnable_iff {fe : Bool} {tc : Option Int} :
    lineEnable fe tc = true ↔ fe = true ∧ ∀ t, tc = some t → t ≠ -1 := by
  cases tc <;> simp [lineEnable]

theorem lineTc0_commandOf_eq (i : Instr) (j : Nat) :
    lineTc0 (commandOf i).filter j = i.tc0.map fun t => tc0Entry t (groupOf i.kind j) := by
  cases i <;> rfl

theorem isLuma_eq_true {k : Kind} : isLuma k = true ↔ k = .luma ∨ k = .lumaIntra := by
  cases k <;> decide

theorem isLuma_eq_false {k : Kind} : isLuma k = false ↔ k = .chroma ∨ k = .chromaIntra := by
  cases k <;> decide

section flags
variable (i : Instr) {j : Nat} (l : Line) (old : LineFlags)

/-- R120. -/
theorem lineFlags_filterEdge_iff : (lineFlags (commandOf i) j l old).filterEdge = true ↔
    |zext8 l.p0 - zext8 l.q0| < i.operands.alpha ∧ |zext8 l.p1 - zext8 l.p0| < i.operands.beta ∧
      |zext8 l.q1 - zext8 l.q0| < i.operands.beta := by
  rw [← commandOf_ops]
  exact filterEdge_iff

/-- R125, R93. -/
theorem lineFlags_en_iff (hj : j < lineCount i.kind) : (lineFlags (commandOf i) j l old).en = true ↔
    (lineFlags (commandOf i) j l old).filterEdge = true ∧
      ∀ t, i.tc0 = some t → Ref.entry t (groupOf i.kind j) ≠ -1 := by
  refine lineEnable_iff.trans (and_congr_right fun _ => ?_)
  simp [lineTc0_commandOf_eq, tc0Entry_eq_entry _ (groupOf_lt hj)]

/-- R121. -/
theorem lineFlags_ap_aq_of_luma (h : i.kind = .luma ∨ i.kind = .lumaIntra) :
    ((lineFlags (commandOf i) j l old).ap = true ↔ |zext8 l.p2 - zext8 l.p0| < i.operands.beta) ∧
      ((lineFlags (commandOf i) j l old).aq = true ↔ |zext8 l.q2 - zext8 l.q0| < i.operands.beta) := by
  simp only [lineFlags, commandOf_kind, commandOf_ops, isLuma_eq_true.2 h, Bool.true_and, softP_iff, softQ_iff, and_self]

/-- R122. -/
theorem lineFlags_ap_aq_of_chroma (h : i.kind = .chroma ∨ i.kind = .chromaIntra) :
    (lineFlags (commandOf i) j l old).ap = false ∧ (lineFlags (commandOf i) j l old).aq = false := by
  simp only [lineFlags, commandOf_kind, isLuma_eq_false.2 h, Bool.false_and, and_self]

/-- R160. -/
theorem lineFlags_sg_iff (h : i.kind = .lumaIntra) : (lineFlags (commandOf i) j l old).sg = true ↔
    |zext8 l.p0 - zext8 l.q0| < i.operands.alpha / 4 + 2 := by
  have hsg : (lineFlags (commandOf i) j l old).sg = smallGap l i.operands.alpha := by
    cases i <;> cases h <;> rfl
  rw [hsg, smallGap_iff]

end flags

/-! ## The parameters -/

theorem loadParams_tc0 {i : Instr} {t : Tc0} (h : i.tc0 = some t) (old : Params) :
    (loadParams (commandOf i) old).tc0 = t := by
  cases i <;> cases h <;> rfl

/-- Settles O43: the active engine afterwards is `completedEngine`, and each of its registers has its own rule above. -/
theorem transientRegistersAreLoaded : Obligations.TransientRegistersAreLoaded := by
  intro i s t eng hexec heng
  rw [exec_eq_perform] at hexec
  obtain ⟨-, rfl⟩ := perform_next hexec
  refine ⟨_, completed_getElem?_active heng, congrArg EdgeOperands.alpha (commandOf_ops i),
    congrArg EdgeOperands.beta (commandOf_ops i), fun tc htc => loadParams_tc0 htc _, fun j hj => ?_⟩
  have hj' : j < lineCount (commandOf i).filter.kind := by rwa [commandOf_kind]
  exact ⟨_, _, gatherLines_getElem? _ hj' _ _, gatherFlags_gatherLines_getElem? _ hj' _ _ _,
    fun p hp => gatherLine_get _ _ _ _ (by rwa [commandOf_kind]), lineFlags_filterEdge_iff i _ _,
    lineFlags_en_iff i _ _ hj, lineFlags_ap_aq_of_luma i _ _, lineFlags_ap_aq_of_chroma i _ _, lineFlags_sg_iff i _ _⟩

end Sys2Proof.Machine
end

section
/-! When a command is performed and what the perform step answers (46_commands R220, R226). -/

namespace Sys2Proof.Machine

open Sys2Proof.Safety

/-- Settles O24: the perform step completes or answers the fault of a precondition. -/
theorem commandsFaultOnlyOnPreconditions : Obligations.CommandsFaultOnlyOnPreconditions := by
  intro i s
  rw [exec_eq_perform]
  rcases perform_cases (commandOf i) s with ⟨hp, hnext⟩ | ⟨r, hfault, hstop⟩
  · rw [hnext]
    exact ⟨⟨fun _ => hp, fun _ => ⟨_, rfl⟩⟩, nofun, nofun⟩
  · rw [hstop]
    refine ⟨⟨nofun, fun hp => ?_⟩, fun r' hr' => ?_, nofun⟩
    · rw [performFault_eq_none.2 hp] at hfault
      cases hfault
    · cases hr'
      exact performFault_cases hfault

/-- R291: a busy engine with no busy engine below it is the lowest-numbered one. -/
theorem firstBusy_eq_some {s : State} {e : Nat} {eng : Engine} (he : s.engines[e]? = some eng) (hb : eng.busy = true)
    (hbelow : ∀ o < e, s.busyAt o = false) : s.firstBusy = some e :=
  List.find?_range_eq_some.2 ⟨(busyAt_of_getElem? he).trans hb, List.mem_range.2 (lt_length_of_getElem? he),
    fun o ho => by rw [hbelow o ho]; rfl⟩

/-- R220: a step that is the turn of a busy engine is the meaning of the command in its latch. -/
theorem step_engine {s : State} {e : Nat} {rest : List Input} {eng : Engine} {i : Instr} (ho : s.outcome = .ok)
    (hturn : nextTurn s = (.engine e, rest)) (he : s.engines[e]? = some eng) (hb : eng.busy = true)
    (hd : decode eng.inflight = .ok i) : step s = exec i { s with inputs := rest, active := e } :=
  (step_of_nextTurn ho hturn).trans (engineTurn_busy (s := { s with inputs := rest }) he hb hd)

/-- Settles O12: each of the three schedules makes the step that engine's turn. -/
theorem stepPerformsTheLatchedCommand : Obligations.StepPerformsTheLatchedCommand := by
  intro s e eng i ho he hb hd
  refine ⟨fun rest hi => step_engine ho (nextTurn_perform hi) he hb hd, fun v rest hi => step_go_busy ho hi he hb hd,
    fun hi hbelow => ?_⟩
  rw [step_engine ho (nextTurn_empty_busy hi (firstBusy_eq_some he hb hbelow)) he hb hd, ← hi]

/-- The placed descriptor is in the latch of engine 0, which is busy. -/
theorem placeCommand_getElem?_zero (d : Descriptor) (s : State) :
    ∃ eng, (placeCommand d s).engines[0]? = some (loadEngine d eng) := by
  unfold placeCommand
  cases s.engines with
  | nil => exact ⟨_, rfl⟩
  | cons eng rest => exact ⟨eng, rfl⟩

theorem decode_of_decodeTableWord {nbits w : Nat} {i : Instr} (h : decodeTableWord nbits w = some i) :
    decode (tableDescriptor nbits w) = .ok i := by
  rw [decodeTableWord] at h
  cases hd : decode (tableDescriptor nbits w) with
  | error => rw [hd] at h; cases h
  | ok i' => rw [hd] at h; cases h; rfl

/-- Settles O13: placing puts a `perform` move of engine 0 first in line. -/
theorem placedWordIsPerformedNext : Obligations.PlacedWordIsPerformedNext := by
  intro s nbits w i h
  obtain ⟨eng, heng⟩ := placeCommand_getElem?_zero (tableDescriptor nbits w) s
  exact ⟨_, step_engine (placeCommand_outcome _ s) (nextTurn_perform (placeCommand_inputs _ s)) heng
    (loadEngine_busy _ eng) (decode_of_decodeTableWord h), rfl, rfl, rfl, rfl⟩

end Sys2Proof.Machine
end

section
/-! The filter units against the line functions of the spec (46_commands R221 to R224): on a Line whose registers hold the
samples `x`, each unit leaves at every written position what its line function gives for `x`. -/

namespace Sys2Proof.Machine

/-! ## Arithmetic -/

theorem bound_eq_clip (v : Int) {lo hi : Int} (h : lo ≤ hi) : Ref.bound v lo hi = clip v lo hi := by
  unfold Ref.bound clip
  split <;> [skip; split] <;> omega

theorem boolInt_eq_flag {b : Bool} {q : Prop} [Decidable q] (h : b = true ↔ q) : boolInt b = Ref.flag q := by
  simp only [boolInt, Ref.flag, h]

theorem zext8_sel {b : Bool} {q : Prop} [Decidable q] (h : b = true ↔ q) (v w : Byte) :
    zext8 (sel b v w) = if q then zext8 v else zext8 w := by
  simp only [sel, h, apply_ite zext8]

@[simp] theorem sel_true (a b : Byte) : sel true a b = a := rfl

/-- R15, R16: a sample is stored as it was computed where the value is in range. -/
theorem zext8_toSample_of_mem {v : Int} (h : 0 ≤ v ∧ v ≤ 255) : zext8 (toSample v) = v :=
  (zext8_toSample v).trans (clip_of_mem h.1 h.2)

theorem zext8_toSample_eq_bound (v : Int) : zext8 (toSample v) = Ref.bound v 0 255 :=
  (zext8_toSample v).trans (bound_eq_clip v (by decide)).symm

/-! Every average of samples is stored as it was computed (R163 to R166, R191). -/

section averages
variable (a b c d e : Byte)

theorem zext8_toSample_strongCentre : zext8 (toSample (strongCentre (zext8 a) (zext8 b) (zext8 c) (zext8 d) (zext8 e))) =
    (zext8 a + 2 * zext8 b + 2 * zext8 c + 2 * zext8 d + zext8 e + 4) / 8 :=
  zext8_toSample_of_mem
    (average_ranges (zext8_bounds a) (zext8_bounds b) (zext8_bounds c) (zext8_bounds d) (zext8_bounds e)).1

theorem zext8_toSample_strongSecond : zext8 (toSample (strongSecond (zext8 a) (zext8 b) (zext8 c) (zext8 d))) =
    (zext8 a + zext8 b + zext8 c + zext8 d + 2) / 4 :=
  zext8_toSample_of_mem
    (average_ranges (zext8_bounds a) (zext8_bounds b) (zext8_bounds c) (zext8_bounds d) (zext8_bounds a)).2.1

theorem zext8_toSample_strongThird : zext8 (toSample (strongThird (zext8 a) (zext8 b) (zext8 c) (zext8 d) (zext8 e))) =
    (2 * zext8 a + 3 * zext8 b + zext8 c + zext8 d + zext8 e + 4) / 8 :=
  zext8_toSample_of_mem
    (average_ranges (zext8_bounds a) (zext8_bounds b) (zext8_bounds c) (zext8_bounds d) (zext8_bounds e)).2.2.1

theorem zext8_toSample_weakCentre : zext8 (toSample (weakCentre (zext8 a) (zext8 b) (zext8 c))) =
    (2 * zext8 a + zext8 b + zext8 c + 2) / 4 :=
  zext8_toSample_of_mem
    (average_ranges (zext8_bounds a) (zext8_bounds b) (zext8_bounds c) (zext8_bounds a) (zext8_bounds a)).2.2.2

end averages

/-! ## The registers and the samples -/

/-- The registers a kind's unit reads hold the samples `x`, each at its own position. -/
def ReadsAs (k : Kind) (l : Line) (x : Int → Int) : Prop :=
  ∀ p ∈ kRead k, zext8 (l.get p) = x p.offset

section reads
variable {k : Kind} {l : Line} {x : Int → Int} (h : ReadsAs k l x)
include h

theorem ReadsAs.centre : zext8 l.p1 = x (-2) ∧ zext8 l.p0 = x (-1) ∧ zext8 l.q0 = x 0 ∧ zext8 l.q1 = x 1 :=
  ⟨h .p1 (by cases k <;> decide), h .p0 (by cases k <;> decide), h .q0 (by cases k <;> decide),
    h .q1 (by cases k <;> decide)⟩

theorem ReadsAs.soft (hk : isLuma k = true) : zext8 l.p2 = x (-3) ∧ zext8 l.q2 = x 2 :=
  ⟨h .p2 (by revert hk; cases k <;> decide), h .q2 (by revert hk; cases k <;> decide)⟩

theorem ReadsAs.outer (hk : k = .lumaIntra) : zext8 l.p3 = x (-4) ∧ zext8 l.q3 = x 3 := by
  subst hk
  exact ⟨h .p3 (by decide), h .q3 (by decide)⟩

theorem filterEdge_iff_edge {alpha beta : Int} : filterEdge l alpha beta = true ↔ Ref.edge x alpha beta := by
  obtain ⟨hp1, hp0, hq0, hq1⟩ := h.centre
  rw [filterEdge_iff, hp1, hp0, hq0, hq1]

theorem softP_iff_near (hk : isLuma k = true) {beta : Int} : softP l beta = true ↔ Ref.near x beta := by
  rw [softP_iff, (h.soft hk).1, h.centre.2.1]

theorem softQ_iff_far (hk : isLuma k = true) {beta : Int} : softQ l beta = true ↔ Ref.far x beta := by
  obtain ⟨-, -, hq0, -⟩ := h.centre
  rw [softQ_iff, (h.soft hk).2, hq0]

theorem smallGap_iff_gap {alpha : Int} : smallGap l alpha = true ↔ Ref.gap x alpha := by
  obtain ⟨-, hp0, hq0, -⟩ := h.centre
  rw [smallGap_iff, hp0, hq0]

theorem rawDelta_eq_raw : rawDelta l = Ref.raw x := by
  obtain ⟨hp1, hp0, hq0, hq1⟩ := h.centre
  rw [rawDelta, asr_three, hp1, hp0, hq0, hq1, Ref.raw]

theorem centreMean_eq_mean : centreMean l = Ref.mean x := by
  obtain ⟨-, hp0, hq0, -⟩ := h.centre
  rw [centreMean, asr_one, hp0, hq0, Ref.mean]

theorem centreDelta_eq_bound {t : Int} (ht : 0 ≤ t) : centreDelta t l = Ref.bound (Ref.raw x) (-t) t := by
  rw [centreDelta, rawDelta_eq_raw h, bound_eq_clip _ (by omega)]

end reads

theorem secondSample_eq_bound {t : Int} (ht : 0 ≤ t) (outer second mean : Int) : secondSample t outer second mean =
    second + Ref.bound ((outer + mean - 2 * second) / 2) (-t) t := by
  rw [secondSample, asr_one, bound_eq_clip _ (by omega)]

/-! ## The four units -/

section units
variable {l : Line} {x : Int → Int} {fl : LineFlags} {alpha beta t : Int} {p : Pos}

/-- R221 on an enabled Line. -/
theorem lumaNormalLine_get (h : ReadsAs .luma l x) (hen : fl.en = true) (hedge : Ref.edge x alpha beta)
    (hap : fl.ap = true ↔ Ref.near x beta) (haq : fl.aq = true ↔ Ref.far x beta) (ht : 0 ≤ t) (hp : p ∈ kWrite .luma) :
    zext8 ((lumaNormalLine fl t l).get p) = Ref.lumaLine x alpha beta t p.offset := by
  obtain ⟨hp1, hp0, hq0, hq1⟩ := h.centre
  obtain ⟨hp2, hq2⟩ := h.soft rfl
  have hline : Ref.edge x alpha beta ∧ t ≠ -1 := ⟨hedge, by omega⟩
  have hbound : lumaClipBound fl t = t + Ref.flag (Ref.near x beta) + Ref.flag (Ref.far x beta) := by
    rw [lumaClipBound, boolInt_eq_flag hap, boolInt_eq_flag haq]
  have hdelta := centreDelta_eq_bound h (lumaClipBound_nonneg ht fl)
  have hsecond (outer second : Byte) : zext8 (toSample (secondSample t (zext8 outer) (zext8 second) (centreMean l))) =
      zext8 second + Ref.bound ((zext8 outer + Ref.mean x - 2 * zext8 second) / 2) (-t) t := by
    rw [zext8_toSample_of_mem (secondSample_range ht (zext8_bounds _) (zext8_bounds _) (centreMean_range l)),
      secondSample_eq_bound ht, centreMean_eq_mean h]
  rw [hbound] at hdelta
  rw [Ref.lumaLine, if_pos hline]
  cases p <;> simp only [kWrite, List.mem_cons, reduceCtorEq, List.not_mem_nil, or_self] at hp
  case p1 =>
    show zext8 (sel (fl.en && fl.ap) _ _) = if Ref.near x beta then _ else _
    rw [zext8_sel (by rw [hen, Bool.true_and, hap]), hsecond, hp2, hp1]
  case p0 =>
    show zext8 (sel fl.en _ _) = Ref.bound _ 0 255
    rw [hen, sel_true, zext8_toSample_eq_bound, hp0, hbound, hdelta]
  case q0 =>
    show zext8 (sel fl.en _ _) = Ref.bound _ 0 255
    rw [hen, sel_true, zext8_toSample_eq_bound, hq0, hbound, hdelta]
  case q1 =>
    show zext8 (sel (fl.en && fl.aq) _ _) = if Ref.far x beta then _ else _
    rw [zext8_sel (by rw [hen, Bool.true_and, haq]), hsecond, hq2, hq1]

/-- R222 on an enabled Line. -/
theorem lumaStrongLine_get (h : ReadsAs .lumaIntra l x) (hen : fl.en = true) (hedge : Ref.edge x alpha beta)
    (hap : fl.ap = true ↔ Ref.near x beta) (haq : fl.aq = true ↔ Ref.far x beta) (hsg : fl.sg = true ↔ Ref.gap x alpha)
    (hp : p ∈ kWrite .lumaIntra) :
    zext8 ((lumaStrongLine fl l).get p) = Ref.lumaIntraLine x alpha beta p.offset := by
  obtain ⟨hp1, hp0, hq0, hq1⟩ := h.centre
  obtain ⟨hp2, hq2⟩ := h.soft rfl
  obtain ⟨hp3, hq3⟩ := h.outer rfl
  have hselP : selectP fl = true ↔ Ref.near x beta ∧ Ref.gap x alpha := by rw [selectP, Bool.and_eq_true, hap, hsg]
  have hselQ : selectQ fl = true ↔ Ref.far x beta ∧ Ref.gap x alpha := by rw [selectQ, Bool.and_eq_true, haq, hsg]
  rw [Ref.lumaIntraLine, if_pos hedge]
  cases p <;> simp only [kWrite, List.mem_cons, reduceCtorEq, List.not_mem_nil, or_self] at hp
  case p2 =>
    show zext8 (sel (fl.en && selectP fl) _ _) = if Ref.near x beta ∧ Ref.gap x alpha then _ else _
    rw [hen, Bool.true_and, zext8_sel hselP, zext8_toSample_strongThird, hp3, hp2, hp1, hp0, hq0]
  case p1 =>
    show zext8 (sel (fl.en && selectP fl) _ _) = if Ref.near x beta ∧ Ref.gap x alpha then _ else _
    rw [hen, Bool.true_and, zext8_sel hselP, zext8_toSample_strongSecond, hp2, hp1, hp0, hq0]
  case p0 =>
    show zext8 (sel fl.en (sel (selectP fl) _ _) _) = if Ref.near x beta ∧ Ref.gap x alpha then _ else _
    rw [hen, sel_true, zext8_sel hselP, zext8_toSample_strongCentre, zext8_toSample_weakCentre, hp2, hp1, hp0, hq0, hq1]
  case q0 =>
    show zext8 (sel fl.en (sel (selectQ fl) _ _) _) = if Ref.far x beta ∧ Ref.gap x alpha then _ else _
    rw [hen, sel_true, zext8_sel hselQ, zext8_toSample_strongCentre, zext8_toSample_weakCentre, hp1, hp0, hq0, hq1, hq2]
  case q1 =>
    show zext8 (sel (fl.en && selectQ fl) _ _) = if Ref.far x beta ∧ Ref.gap x alpha then _ else _
    rw [hen, Bool.true_and, zext8_sel hselQ, zext8_toSample_strongSecond, hp0, hq0, hq1, hq2]
  case q2 =>
    show zext8 (sel (fl.en && selectQ fl) _ _) = if Ref.far x beta ∧ Ref.gap x alpha then _ else _
    rw [hen, Bool.true_and, zext8_sel hselQ, zext8_toSample_strongThird, hp0, hq0, hq1, hq2, hq3]

/-- R223 on an enabled Line. -/
theorem chromaNormalLine_get (h : ReadsAs .chroma l x) (hen : fl.en = true) (hedge : Ref.edge x alpha beta)
    (ht : 0 ≤ t) (hp : p ∈ kWrite .chroma) :
    zext8 ((chromaNormalLine fl t l).get p) = Ref.chromaLine x alpha beta t p.offset := by
  obtain ⟨-, hp0, hq0, -⟩ := h.centre
  have hline : Ref.edge x alpha beta ∧ t ≠ -1 := ⟨hedge, by omega⟩
  rw [Ref.chromaLine, if_pos hline]
  cases p <;> simp only [kWrite, List.mem_cons, reduceCtorEq, List.not_mem_nil, or_self] at hp
  case p0 =>
    show zext8 (sel fl.en _ _) = Ref.bound _ 0 255
    rw [hen, sel_true, zext8_toSample_eq_bound, hp0, centreDelta_eq_bound h ht]
  case q0 =>
    show zext8 (sel fl.en _ _) = Ref.bound _ 0 255
    rw [hen, sel_true, zext8_toSample_eq_bound, hq0, centreDelta_eq_bound h ht]

/-- R224 on an enabled Line. -/
theorem chromaStrongLine_get (h : ReadsAs .chromaIntra l x) (hen : fl.en = true) (hedge : Ref.edge x alpha beta)
    (hp : p ∈ kWrite .chromaIntra) :
    zext8 ((chromaStrongLine fl l).get p) = Ref.chromaIntraLine x alpha beta p.offset := by
  obtain ⟨hp1, hp0, hq0, hq1⟩ := h.centre
  rw [Ref.chromaIntraLine, if_pos hedge]
  cases p <;> simp only [kWrite, List.mem_cons, reduceCtorEq, List.not_mem_nil, or_self] at hp
  case p0 =>
    show zext8 (sel fl.en _ _) = _ / 4
    rw [hen, sel_true, zext8_toSample_weakCentre, hp1, hp0, hq1]
  case q0 =>
    show zext8 (sel fl.en _ _) = _ / 4
    rw [hen, sel_true, zext8_toSample_weakCentre, hp1, hq0, hq1]

end units

/-! ## The line function of a command -/

/-- `line_<kind>` of a command for Line j (R221 to R224). -/
def lineFunction (c : Command) (j : Nat) (x : Int → Int) (k : Int) : Int :=
  match c.filter with
  | .luma t => Ref.lumaLine x c.ops.alpha c.ops.beta (Ref.entry t (j / 4)) k
  | .lumaIntra => Ref.lumaIntraLine x c.ops.alpha c.ops.beta k
  | .chroma t => Ref.chromaLine x c.ops.alpha c.ops.beta (Ref.entry t (j / 2)) k
  | .chromaIntra => Ref.chromaIntraLine x c.ops.alpha c.ops.beta k

/-- R221 to R224: a position outside `K_write` keeps its sample. -/
theorem lineFunction_of_notMem_kWrite (c : Command) (j : Nat) (x : Int → Int) {p : Pos} (hp : p ∉ kWrite c.filter.kind) :
    lineFunction c j x p.offset = x p.offset := by
  obtain ⟨f, d, o⟩ := c
  cases f with
  | luma t =>
    cases p with
    | p3 | p2 | q2 | q3 => exact ite_self _
    | _ => simp [Filter.kind, kWrite] at hp
  | lumaIntra =>
    cases p with
    | p3 | q3 => exact ite_self _
    | _ => simp [Filter.kind, kWrite] at hp
  | chroma t =>
    cases p with
    | p3 | p2 | p1 | q1 | q2 | q3 => exact ite_self _
    | _ => simp [Filter.kind, kWrite] at hp
  | chromaIntra =>
    cases p with
    | p3 | p2 | p1 | q1 | q2 | q3 => exact ite_self _
    | _ => simp [Filter.kind, kWrite] at hp

/-- R125, R93: the mask unit enables the Line that the line function changes. -/
theorem lineFlags_en_iff_edge {c : Command} {j : Nat} {l : Line} {x : Int → Int} {old : LineFlags}
    (h : ReadsAs c.filter.kind l x) : (lineFlags c j l old).en = true ↔
      Ref.edge x c.ops.alpha c.ops.beta ∧ ∀ t, lineTc0 c.filter j = some t → t ≠ -1 :=
  lineEnable_iff.trans (and_congr_left fun _ => filterEdge_iff_edge h)

/-- R124: the entry of the group of Line j, in the words of R221 and R223. -/
theorem lineTc0_luma (t : Tc0) {j : Nat} (hj : j < 16) : lineTc0 (.luma t) j = some (Ref.entry t (j / 4)) :=
  congrArg some (tc0Entry_eq_entry t (show j / 4 < 4 by omega))

theorem lineTc0_chroma (t : Tc0) {j : Nat} (hj : j < 8) : lineTc0 (.chroma t) j = some (Ref.entry t (j / 2)) :=
  congrArg some (tc0Entry_eq_entry t (show j / 2 < 4 by omega))

section line
variable {c : Command} {j : Nat} {l : Line} {x : Int → Int} {old : LineFlags} {p : Pos}
  (h : ReadsAs c.filter.kind l x) (hj : j < lineCount c.filter.kind)
include h hj

/-- R125: every sample of a Line that is not enabled is kept. -/
theorem lineFunction_of_disabled (hen : (lineFlags c j l old).en = false) (k : Int) : lineFunction c j x k = x k := by
  have hoff : ¬(Ref.edge x c.ops.alpha c.ops.beta ∧ ∀ t, lineTc0 c.filter j = some t → t ≠ -1) := by
    rw [← lineFlags_en_iff_edge h, hen]
    exact Bool.false_ne_true
  obtain ⟨f, d, o⟩ := c
  cases f with
  | luma t =>
    rw [lineTc0_luma t hj] at hoff
    exact if_neg fun hon => hoff ⟨hon.1, fun t ht => by cases ht; exact hon.2⟩
  | lumaIntra => exact if_neg fun hon => hoff ⟨hon, nofun⟩
  | chroma t =>
    rw [lineTc0_chroma t hj] at hoff
    exact if_neg fun hon => hoff ⟨hon.1, fun t ht => by cases ht; exact hon.2⟩
  | chromaIntra => exact if_neg fun hon => hoff ⟨hon, nofun⟩

/-- R221 to R224: at a written position every command leaves what its line function gives. -/
theorem lineResult_get_of_mem_kWrite (hlegal : c.filter.LegalTc0) (hp : p ∈ kWrite c.filter.kind) :
    zext8 ((lineResult c j old l).get p) = lineFunction c j x p.offset := by
  rw [lineResult]
  cases hen : (lineFlags c j l old).en with
  | false =>
    rw [filterLine_of_disabled _ hen, lineFunction_of_disabled h hj hen]
    exact h p (kWrite_subset_kRead hp)
  | true =>
    obtain ⟨hedge, -⟩ := (lineFlags_en_iff_edge h).1 hen
    have htc (t : Int) (ht : lineTc0 c.filter j = some t) : 0 ≤ t := lineTc0_nonneg_of_enabled hlegal hen ht
    obtain ⟨f, d, o⟩ := c
    cases f with
    | luma t =>
      have hentry := Option.some.inj (lineTc0_luma t hj)
      rw [filterLine, lineFunction, hentry]
      exact lumaNormalLine_get h hen hedge (softP_iff_near h rfl) (softQ_iff_far h rfl) (htc _ (lineTc0_luma t hj)) hp
    | lumaIntra =>
      exact lumaStrongLine_get h hen hedge (softP_iff_near h rfl) (softQ_iff_far h rfl) (smallGap_iff_gap h) hp
    | chroma t =>
      have hentry := Option.some.inj (lineTc0_chroma t hj)
      rw [filterLine, lineFunction, hentry]
      exact chromaNormalLine_get h hen hedge (htc _ (lineTc0_chroma t hj)) hp
    | chromaIntra => exact chromaStrongLine_get h hen hedge hp

end line

end Sys2Proof.Machine
end

section
/-! The samples of a completed command against the line functions of the spec, at the addresses of its form (46_commands R230
to R237). -/

namespace Sys2Proof.Machine

open Sys2Proof.Safety

/-- The address of position k of Line j in each form (R230, R231). -/
def formAddr (d : Dir) (o : EdgeOperands) : Nat → Int → Int :=
  match d with
  | .vertical => Ref.rowAddr o
  | .horizontal => Ref.colAddr o

theorem siteAddr_eq_formAddr (c : Command) (j : Nat) (p : Pos) : siteAddr c j p = formAddr c.dir c.ops j p.offset := by
  cases hd : c.dir with
  | vertical => rw [siteAddr_vertical hd, ← add_assoc]; rfl
  | horizontal => rw [siteAddr_horizontal hd, add_comm (p.offset * _), ← add_assoc]; rfl

/-- A command's preconditions in the words of R67 and R68, at the positions of its kind. -/
abbrev FormOk (plane : List Region) (c : Command) : Prop :=
  Ref.EdgeOk plane (formAddr c.dir c.ops) (lineCount c.filter.kind) (-reach c.filter.kind) (reach c.filter.kind - 1)

theorem performable_of_formOk {plane : List Region} {c : Command} (h : FormOk plane c) : Performable plane c := by
  have hbounds {p : Pos} (hp : p ∈ kReq c.filter.kind) :
      -reach c.filter.kind ≤ p.offset ∧ p.offset ≤ reach c.filter.kind - 1 :=
    (mem_kReq_iff.1 hp).imp_right Int.le_sub_one_of_lt
  constructor
  · intro y hy
    obtain ⟨j, hj, p, hp, rfl⟩ := mem_sites.1 hy
    show inPlane plane (siteAddr c j p) = true
    rw [siteAddr_eq_formAddr]
    exact h.valid j hj _ (hbounds hp).1 (hbounds hp).2
  · refine (footprint_pairwise_before c).imp_of_mem fun {y z} hy hz hbefore he => ?_
    obtain ⟨j, hj, p, hp, rfl⟩ := mem_sites.1 hy
    obtain ⟨j', hj', p', hp', rfl⟩ := mem_sites.1 hz
    simp only [siteAddr_eq_formAddr] at he
    obtain ⟨rfl, hoffset⟩ := h.distinct j hj _ (hbounds hp).1 (hbounds hp).2 j' hj' _ (hbounds hp').1 (hbounds hp').2 he
    exact Site.Before.irrefl _ (offset_inj hoffset ▸ hbefore)

/-- The registers gathered from the plane hold the plane's samples at the Line's positions. -/
theorem readsAs_planeLine (c : Command) (s : State) (j : Nat) :
    ReadsAs c.filter.kind (planeLine c s.mem j) fun n => Ref.sample s (formAddr c.dir c.ops j n) := by
  intro p hp
  rw [planeLine, gatherLine_get _ _ _ _ hp, siteAddr_eq_formAddr]
  rfl

/-- R221 to R224: every footprint sample of a completed command is what the line function gives. -/
theorem sample_completed {c : Command} {s : State} (h : Performable s.plane c) (hlegal : c.filter.LegalTc0) {j : Nat}
    {p : Pos} (hj : j < lineCount c.filter.kind) (hp : p ∈ kReq c.filter.kind) :
    Ref.sample (completed c s) (formAddr c.dir c.ops j p.offset) =
      lineFunction c j (fun n => Ref.sample s (formAddr c.dir c.ops j n)) p.offset := by
  have hmem := memRead_completed h hj hp
  rw [siteAddr_eq_formAddr] at hmem
  rw [Ref.sample, hmem]
  split
  · rename_i hw
    exact lineResult_get_of_mem_kWrite (readsAs_planeLine c s j) hj hlegal hw
  · rename_i hw
    rw [lineFunction_of_notMem_kWrite c j _ hw]
    rfl

/-- R226, R221 to R224: a command completes wherever its preconditions hold, with every footprint sample as the line function
gives it. -/
theorem exec_filtered {i : Instr} {s : State} (hlegal : (commandOf i).filter.LegalTc0)
    (h : FormOk s.plane (commandOf i)) : ∃ u, exec i s = .next u ∧
      Ref.Filtered s u (formAddr (commandOf i).dir (commandOf i).ops) (lineCount (commandOf i).filter.kind)
        (-reach (commandOf i).filter.kind) (reach (commandOf i).filter.kind - 1) (lineFunction (commandOf i)) := by
  have hp := performable_of_formOk h
  refine ⟨_, exec_of_performable hp, fun j hj k hlo hhi => ?_⟩
  obtain ⟨p, hpos, rfl⟩ := exists_pos_of_offset hlo (Int.lt_of_le_sub_one hhi)
  exact sample_completed hp hlegal hj hpos

theorem Filter.legalTc0_of_intra {f : Filter} (h : f = .lumaIntra ∨ f = .chromaIntra) : f.LegalTc0 := by
  rcases h with rfl | rfl <;> exact nofun

/-- Settles O26: the line function of `filter_luma` is `line_LUMA` with the tc0 of the Line's group. -/
theorem filterLumaResult : Obligations.FilterLumaResult := fun o t _ ht =>
  ⟨exec_filtered (i := .filterLumaV o t) (Filter.legalTc0_luma ht),
    exec_filtered (i := .filterLumaH o t) (Filter.legalTc0_luma ht)⟩

/-- Settles O27: the line function of `filter_luma_intra` is `line_LUMA_INTRA`. -/
theorem filterLumaIntraResult : Obligations.FilterLumaIntraResult := fun o _ =>
  ⟨exec_filtered (i := .filterLumaIntraV o) (Filter.legalTc0_of_intra (.inl rfl)),
    exec_filtered (i := .filterLumaIntraH o) (Filter.legalTc0_of_intra (.inl rfl))⟩

/-- Settles O28: the line function of `filter_chroma` is `line_CHROMA` with the tc0 of the Line's group. -/
theorem filterChromaResult : Obligations.FilterChromaResult := fun o t _ ht =>
  ⟨exec_filtered (i := .filterChromaV o t) (Filter.legalTc0_chroma ht),
    exec_filtered (i := .filterChromaH o t) (Filter.legalTc0_chroma ht)⟩

/-- Settles O29: the line function of `filter_chroma_intra` is `line_CHROMA_INTRA`. -/
theorem filterChromaIntraResult : Obligations.FilterChromaIntraResult := fun o _ =>
  ⟨exec_filtered (i := .filterChromaIntraV o) (Filter.legalTc0_of_intra (.inr rfl)),
    exec_filtered (i := .filterChromaIntraH o) (Filter.legalTc0_of_intra (.inr rfl))⟩

end Sys2Proof.Machine
end

section
/-! The exceptions of the engine (60_exceptions): the faults and refusals of a GO in the order of R257, the cause code and
payload of each mark (R256), and the idle system (R267). -/

namespace Sys2Proof.Machine

/-! ## The checks of a GO -/

/-- R254: a GO of a legal descriptor faults for the lowest descriptor register never written. -/
theorem go_of_unwritten {s : State} {e k : Nat} {eng : Engine} {i : Instr} (hd : decode eng.staged = .ok i)
    (hw : firstUnwritten eng.wr = some k) : go e eng s = .fault (.unwrittenDescriptor k) := by
  unfold go
  simp only [hd, hw]

/-- R268: a GO of a legal, written descriptor is refused for an engine whose footprint in flight it meets. -/
theorem go_of_shared {s : State} {e o : Nat} {eng : Engine} {i : Instr} (hd : decode eng.staged = .ok i)
    (hw : firstUnwritten eng.wr = none) (hs : sharingEngine s e ((footprint (commandOf i)).map Site.addr) = some o) :
    go e eng s = .refused (.footprintsShared e o) := by
  unfold go
  simp only [hd, hw, hs]

/-- R268: some engine is named as soon as one other engine's footprint in flight has an address of the list. -/
theorem exists_sharingEngine {s : State} {e o : Nat} {fp : List Int} {other : Engine} {a : Int} (hoe : o ≠ e)
    (hother : s.engines[o]? = some other) (ha : a ∈ inFlightFootprint other) (hfp : a ∈ fp) :
    ∃ o', sharingEngine s e fp = some o' :=
  Option.ne_none_iff_exists'.1 fun hnone => sharingEngine_eq_none.1 hnone o other hoe hother a ha a hfp rfl

/-- Settles O20: the GO's second check answers the lowest index whose flag is 0. -/
theorem unwrittenDescriptorFaults : Obligations.UnwrittenDescriptorFaults := by
  intro s e v rest eng i ho hi he hb hd
  have hfault : ∀ k, firstUnwritten eng.wr = some k → step s = .fault (.unwrittenDescriptor k) := fun k hw =>
    (step_go_idle ho hi he hb).trans (go_of_unwritten hd hw)
  refine ⟨fun h0 => hfault 0 ?_, fun h0 h1 => hfault 1 ?_, fun h0 h1 h2 => hfault 2 ?_, fun h0 h1 h2 h3 => hfault 3 ?_⟩
  · simp [firstUnwritten, h0]
  · simp [firstUnwritten, h0, h1]
  · simp [firstUnwritten, h0, h1, h2]
  · simp [firstUnwritten, h0, h1, h2, h3]

/-- Settles O46: the common address is in the footprint in flight of `o`, so the GO's third check names some engine. -/
theorem sharedFootprintGoIsRefused : Obligations.SharedFootprintGoIsRefused := by
  intro s e o v rest eng other i k x y ho hi he hb hd hw hoe hother hbusy hk hx hy hxy
  have hmem : x.addr ∈ inFlightFootprint other := by
    rw [inFlightFootprint_of_busy hbusy hk, hxy]
    exact List.mem_map_of_mem hy
  obtain ⟨o', hs⟩ := exists_sharingEngine (s := { s with inputs := rest }) hoe hother hmem (List.mem_map_of_mem hx)
  exact ⟨o', (step_go_idle ho hi he hb).trans (go_of_shared hd (firstUnwritten_eq_none.2 hw) hs)⟩

/-! ## The marks -/

/-- R45: a step that answers a next state leaves no mark. -/
theorem step_next_outcome {s t : State} (h : step s = .next t) : t.outcome = .ok := by
  obtain ⟨ho, heffect⟩ := step_effect h
  exact heffect.outcome_eq.trans ho

theorem step_unwritten_index {s : State} {k : Nat} (ho : s.outcome = .ok)
    (h : step s = .fault (.unwrittenDescriptor k)) : k ≤ 3 := by
  rcases step_fault ho h with ⟨k', hk', hr⟩ | ⟨c, hc⟩
  · cases hr
    exact hk'
  · rcases performFault_cases hc with ⟨_, hr⟩ | ⟨_, _, _, _, hr⟩ <;> cases hr

/-- R226: a fault other than that of an unwritten register is the fault of a command's preconditions. -/
theorem step_performFault {s : State} {r : Fault} (ho : s.outcome = .ok) (h : step s = .fault r)
    (hr : ∀ k, r ≠ .unwrittenDescriptor k) : ∃ c, performFault s.plane c = some r :=
  (step_fault ho h).resolve_left fun ⟨k, _, hk⟩ => hr k hk

/-- Settles O57: the marked state carries the step's answer, whose payload comes from the check that answered it. -/
theorem marksCarryTheCauseCodes : Obligations.MarksCarryTheCauseCodes := by
  intro s ho m
  have hfault : ∀ r, step s = .fault r → m = .fault r := fun r h => (outcomeMarkIsSticky.1 s r h).2
  have hrefused : ∀ r, step s = .refused r → m = .refused r := fun r h => (outcomeMarkIsSticky.2 s r h).2
  refine ⟨fun t h => ?_, fun h => ?_, fun k h => ?_, fun a h => ?_, fun j1 k1 j2 k2 h => ?_⟩
  · have hm : m = .ok := by
      show (markedStep s (step s)).outcome = .ok
      rw [h]
      exact step_next_outcome h
    rw [hm]
    rfl
  · rw [hrefused _ h]
    exact ⟨rfl, rfl⟩
  · rw [hfault _ h]
    exact ⟨step_unwritten_index ho h, rfl, rfl⟩
  · obtain ⟨c, hc⟩ := step_performFault ho h nofun
    rw [hfault _ h]
    exact ⟨performFault_payload.1 a hc, rfl, rfl⟩
  · obtain ⟨c, hc⟩ := step_performFault ho h nofun
    rw [hfault _ h]
    exact ⟨performFault_payload.2 j1 k1 j2 k2 hc, rfl, rfl⟩

/-! ## The idle system -/

theorem firstBusy_eq_none {s : State} (hidle : ∀ eng ∈ s.engines, eng.busy = false) : s.firstBusy = none := by
  refine List.find?_eq_none.2 fun e he => ?_
  have heng := List.getElem?_eq_getElem (List.mem_range.1 he)
  rw [busyAt_of_getElem? heng, hidle _ (List.mem_of_getElem? heng)]
  exact Bool.false_ne_true

/-- Settles O55: no move is pending and no engine is busy, so the turn is the idle one. -/
theorem idleSystemWaits : Obligations.IdleSystemWaits := by
  intro s ho hi hidle
  rw [step_of_nextTurn ho (nextTurn_empty_idle hi (firstBusy_eq_none hidle)), ← hi]
  rfl

end Sys2Proof.Machine
end

section
/-! The order of a command's stores, and the stores of a command a reset abandons (70_reset_and_hazards R281, R284): the
addresses are distinct (20_memory R68), so each store decides its own sample alone. -/

namespace Sys2Proof.Machine

open Sys2Proof.Safety

/-! ## The order of the stores -/

/-- Stores to distinct addresses leave the same samples in any order. -/
theorem memRead_memWrites_perm {m : Memory} {vs ws : List Host.Cell} (hperm : vs.Perm ws)
    (hd : ws.Pairwise fun v w => v.1 ≠ w.1) (a : Nat) : memRead (memWrites m vs) a = memRead (memWrites m ws) a := by
  by_cases ha : ∃ w ∈ ws, w.1 = a
  · obtain ⟨w, hw, rfl⟩ := ha
    have hd' : vs.Pairwise fun v w => v.1 ≠ w.1 := hperm.symm.pairwise hd Ne.symm
    rw [memRead_memWrites_of_mem hd hw, memRead_memWrites_of_mem hd' (hperm.mem_iff.2 hw)]
  · have hws : ∀ w ∈ ws, w.1 ≠ a := fun w hw hwa => ha ⟨w, hw, hwa⟩
    rw [memRead_memWrites_of_notMem hws, memRead_memWrites_of_notMem fun v hv => hws v (hperm.mem_iff.1 hv)]

/-- Settles O41: a completed command was performable, so its stores go to distinct addresses. -/
theorem storeOrderIsUnobservable : Obligations.StoreOrderIsUnobservable := by
  intro i s t ws hexec hperm a
  rw [exec_eq_perform] at hexec
  obtain ⟨hp, rfl⟩ := perform_next hexec
  exact memRead_memWrites_perm hperm (commandStores_distinct hp _ _) a

/-! ## The stores of an abandoned command -/

/-- R281: of stores to distinct addresses, the n-th takes effect by the n-th free bit, whatever the others do. -/
theorem memRead_drawnStores {ws : List Host.Cell} (hd : ws.Pairwise fun v w => v.1 ≠ w.1) (m : Memory) (k : Nat) {n : Nat}
    {w : Host.Cell} (hw : ws[n]? = some w) :
    memRead (memWrites m (drawnStores k ws)) w.1 = if Config.freeBit (k + n) then w.2 else memRead m w.1 := by
  induction ws generalizing m k n with
  | nil => cases hw
  | cons x rest ih =>
    obtain ⟨hx, hrest⟩ := List.pairwise_cons.1 hd
    cases n with
    | zero =>
      cases hw
      have hlater : ∀ y ∈ drawnStores (k + 1) rest, y.1 ≠ w.1 := fun y hy =>
        (hx y ((drawnStores_sublist _ _).subset hy)).symm
      rw [drawnStores]
      split <;> rename_i hbit
      · rw [memWrites_cons, memRead_memWrites_of_notMem hlater, memRead_memWrite_same, Nat.add_zero, if_pos hbit]
      · rw [memRead_memWrites_of_notMem hlater, Nat.add_zero, if_neg hbit]
    | succ n =>
      have hw' : rest[n]? = some w := hw
      have hne : x.1 ≠ w.1 := hx w (List.mem_of_getElem? hw')
      rw [drawnStores, Nat.add_comm n 1, ← Nat.add_assoc]
      split
      · rw [memWrites_cons, ih hrest _ _ hw', memRead_memWrite_ne _ _ hne]
      · exact ih hrest _ _ hw'

/-- R70: no store of a command goes to an address that is none of its written positions. -/
theorem commandStores_ne {i : Instr} {plane : List Region} (h : Performable plane (commandOf i)) {m : Memory} {e : Engine}
    {a : Nat} (ha : ∀ j < lineCount i.kind, ∀ p ∈ kWrite i.kind, siteAddr (commandOf i) j p ≠ (a : Int)) :
    ∀ w ∈ commandStores (commandOf i) m e, w.1 ≠ a := by
  intro w hw hwa
  obtain ⟨j, hj, p, hp, rfl⟩ := mem_commandStores.1 hw
  have hnonneg := (inPlane_bounds (site_inPlane h hj ((kWrite_sublist _).subset hp))).1
  rw [commandOf_kind] at hj hp
  exact ha j hj p hp ((Int.toNat_of_nonneg hnonneg).symm.trans (congrArg Nat.cast hwa))

/-- R281: reset of a busy engine whose command's preconditions hold abandons that command. -/
theorem step_reset_busy {s : State} {e : Nat} {rest : List Input} {eng : Engine} {i : Instr} (ho : s.outcome = .ok)
    (hi : s.inputs = .reset e :: rest) (he : s.engines[e]? = some eng) (hb : eng.busy = true)
    (hd : decode eng.inflight = .ok i) (hp : Performable s.plane (commandOf i)) :
    step s = .next (abandoned e eng (commandOf i) { s with inputs := rest }) := by
  rw [step_of_nextTurn ho (nextTurn_reset hi)]
  show hostReset e { s with inputs := rest } = _
  unfold hostReset
  simp only [he, inFlight_of_busy hb hd, performFault_eq_none.2 hp]

/-- Settles O47: the abandoned command's stores are those of the completed one, each kept or not by its own free bit. -/
theorem resetAbandonsTheCommand : Obligations.ResetAbandonsTheCommand := by
  intro s e rest eng i ho hi he hb hd hp
  refine ⟨completed (commandOf i) { s with active := e },
    memWrites s.mem (drawnStores s.draws (commandStores (commandOf i) s.mem eng)), exec_of_performable hp,
    step_reset_busy ho hi he hb hd hp, resetEngine_busy, resetEngine_wr, fun a ha => ?_, fun n w hw => ?_⟩
  · exact memRead_memWrites_of_notMem fun v hv =>
      commandStores_ne hp ha v ((drawnStores_sublist _ _).subset hv)
  · have hdistinct := commandStores_distinct hp s.mem eng
    rw [memRead_drawnStores hdistinct _ _ hw, completed_mem, activeEngine_of_getElem? (s := { s with active := e }) he,
      memRead_memWrites_of_mem hdistinct (List.mem_of_getElem? hw)]

end Sys2Proof.Machine
end

section
/-! The commands in flight of a system with no move pending (70_reset_and_hazards R291): each step completes one, by the
model's schedule that of the lowest-numbered busy engine, until no engine is busy. -/

namespace Sys2Proof.Machine

open Sys2Proof.Safety

/-! ## The busy engines -/

/-- How many engines have a command in flight. -/
def State.busyCount (s : State) : Nat :=
  s.engines.countP Engine.busy

theorem busyCount_eq_zero {s : State} : s.busyCount = 0 ↔ ∀ eng ∈ s.engines, eng.busy = false := by
  simp only [State.busyCount, List.countP_eq_zero, Bool.not_eq_true]

theorem busyCount_completed {c : Command} {s : State} {eng : Engine} (he : s.engines[s.active]? = some eng)
    (hb : eng.busy = true) : (completed c s).busyCount = s.busyCount - 1 := by
  obtain ⟨hlt, hget⟩ := List.getElem?_eq_some_iff.1 he
  simp [State.busyCount, completed_engines, List.countP_set hlt, hget, hb]

theorem exists_busy_of_firstBusy {s : State} {e : Nat} (h : s.firstBusy = some e) :
    ∃ eng, s.engines[e]? = some eng ∧ eng.busy = true := by
  obtain ⟨hbusy, hmem, -⟩ := List.find?_range_eq_some.1 h
  have he := List.getElem?_eq_getElem (List.mem_range.1 hmem)
  exact ⟨_, he, (busyAt_of_getElem? he).symm.trans hbusy⟩

theorem idle_of_firstBusy_eq_none {s : State} (h : s.firstBusy = none) : ∀ eng ∈ s.engines, eng.busy = false := by
  intro eng heng
  obtain ⟨e, he⟩ := List.mem_iff_getElem?.1 heng
  rw [← busyAt_of_getElem? he]
  exact Bool.eq_false_iff.2 (List.find?_eq_none.1 h e (List.mem_range.2 (lt_length_of_getElem? he)))

/-! ## A draining system -/

/-- The preconditions of every command in flight hold. -/
def InFlightPerformable (s : State) : Prop :=
  ∀ eng ∈ s.engines, ∀ c, inFlight eng = some c → Performable s.plane c

/-- A completion puts no command in flight and keeps PLANE. -/
theorem InFlightPerformable.completed {s : State} (h : InFlightPerformable s) (c : Command) :
    InFlightPerformable (completed c s) := by
  intro eng heng c' hc
  rw [completed_engines] at heng
  rcases List.mem_or_eq_of_mem_set heng with hold | rfl
  · exact h eng hold c' hc
  · rw [inFlight_of_idle (completedEngine_busy _ _ _ _)] at hc
    cases hc

/-- No move is pending, and every command in flight is legal and can be performed. -/
structure Draining (s : State) : Prop where
  inv : Inv s
  inputs : s.inputs = []
  performable : InFlightPerformable s

/-- A busy engine of a draining system holds a legal descriptor of a performable command. -/
theorem Draining.exists_command {s : State} (h : Draining s) {e : Nat} {eng : Engine} (he : s.engines[e]? = some eng)
    (hb : eng.busy = true) : ∃ i, decode eng.inflight = .ok i ∧ Performable s.plane (commandOf i) := by
  have heng := List.mem_of_getElem? he
  obtain ⟨⟨i, hd⟩, -⟩ := (engineOk_iff.1 (h.inv.engines eng heng)).1 hb
  exact ⟨i, hd, h.performable eng heng _ (inFlight_of_busy hb hd)⟩

/-- R291 (entry 9): with no move pending the lowest-numbered busy engine completes its command. -/
theorem Draining.step_of_firstBusy {s : State} (h : Draining s) {e : Nat} (hfirst : s.firstBusy = some e) :
    ∃ eng i, s.engines[e]? = some eng ∧ eng.busy = true ∧
      step s = .next (completed (commandOf i) { s with inputs := [], active := e }) := by
  obtain ⟨eng, he, hb⟩ := exists_busy_of_firstBusy hfirst
  obtain ⟨i, hd, hp⟩ := h.exists_command he hb
  exact ⟨eng, i, he, hb,
    (step_engine h.inv.outcome (nextTurn_empty_busy h.inputs hfirst) he hb hd).trans (exec_of_performable hp)⟩

/-- Every step of a draining system completes one command in flight, while there is one. -/
theorem Draining.exists_step {s : State} (h : Draining s) :
    ∃ t, step s = .next t ∧ Draining t ∧ t.busyCount = s.busyCount - 1 := by
  cases hfirst : s.firstBusy with
  | none =>
    have hidle := idle_of_firstBusy_eq_none hfirst
    exact ⟨s, idleSystemWaits s h.inv.outcome h.inputs hidle, h, by rw [busyCount_eq_zero.2 hidle]⟩
  | some e =>
    obtain ⟨eng, i, he, hb, hstep⟩ := h.step_of_firstBusy hfirst
    exact ⟨_, hstep,
      ⟨stepKeepsTheSystemInvariant s _ h.inv hstep, rfl,
        InFlightPerformable.completed (s := { s with inputs := [], active := e }) h.performable _⟩,
      busyCount_completed (s := { s with inputs := [], active := e }) he hb⟩

/-- A draining system is idle after as many steps as it has busy engines, and stays so. -/
theorem Draining.run_idle {s : State} (h : Draining s) {k : Nat} (hk : s.busyCount ≤ k) :
    ∃ t, Host.Core.run core k s = .next t ∧ ∀ eng ∈ t.engines, eng.busy = false := by
  induction k generalizing s with
  | zero => exact ⟨s, rfl, busyCount_eq_zero.1 (Nat.le_zero.1 hk)⟩
  | succ k ih =>
    obtain ⟨t, hstep, hdraining, hcount⟩ := h.exists_step
    rw [run_succ_of_next hstep]
    exact ih hdraining (by omega)

/-- Settles O56: there are at most as many busy engines as engines. -/
theorem everyCommandInFlightCompletes : Obligations.EveryCommandInFlightCompletes := fun _ hinv hinputs hperformable =>
  Draining.run_idle ⟨hinv, hinputs, hperformable⟩ List.countP_le_length

end Sys2Proof.Machine
end
